-- ==== Sys2Proof/Word.lean ====
section
/-! DEFINITION. The word types of the machine and their plainest arithmetic (00_scope.md rules R4, R6). -/

namespace Sys2Proof

/-- The addressable unit of memory and the width of a general register, `XLEN` (R4, R10, R30). -/
abbrev Byte := BitVec 8

/-- An instruction word, the index register, the program counter and a stack entry (R4, R50). -/
abbrev Word := BitVec 16

/-- A register number `0 .. 15`, naming `V0 .. VF` (R10). -/
abbrev Reg := Fin 16

/-- `VF`, the register that is also the only flag (R12). -/
def VF : Reg := 15

/-- `V0`, the implicit operand of `Bnnn` (R11). -/
def V0 : Reg := 0

/-- `bool(c)` of R6: `1` if `c` holds, else `0`, as an 8-bit value. -/
def boolByte (c : Bool) : Byte := if c then 1 else 0

end Sys2Proof
end

