-- ==== Sys2Proof/Config.lean ====
section
/-! DEFINITION. The implementation parameters of 00_scope.md rule R4 with the values this hardware takes, and the
free values: what the spec leaves to the host's random source and to a key query outside its domain. -/

namespace Sys2Proof.Config

/-- `MEM_SIZE`: valid addresses are `0 .. memSize - 1` (R4, R30). -/
def memSize : Nat := 4096

/-- `PC_RESET`: `pc` after reset and the load address of the program (R4, R14, R41). -/
def pcReset : Nat := 0x200

/-- `FONT_BASE`: the first byte of the font table (R4, R21). -/
def fontBase : Nat := 0x050

/-- `FONT_BYTES`: the size of the font table (R4, R21). -/
def fontBytes : Nat := 80

/-- `STACK_MAX`: the greatest number of return addresses (R4, R16, decision D6; log 8). -/
def stackMax : Nat := 16

/-- FREE VALUE (log 2): the bytes the host's random source gives, one fresh one for each executed `Cxkk` (R25, U4).
It has no body: nothing can be proved of any of its values. -/
opaque freeRnd : Nat → Byte

/-- FREE VALUE (log 1): the key vectors a host that is not otherwise constrained presents, one fresh one for each
step that reads the keys (R24, U6). It has no body. -/
opaque freeKeys : Nat → BitVec 16

/-- FREE VALUE (log 3): the answers to key queries with an index above 15, one fresh one for each such query
(R126, U5). It has no body. -/
opaque freeKeyAnswer : Nat → Bool

end Sys2Proof.Config
end

