-- ==== Sys2Proof/Syntax.lean ====
section
/-! DEFINITION. The instruction set as syntax: one constructor for each row of spec/opcode_table.json, in the table's
order (30_encoding.md rule R55), the default row included (R57). -/

namespace Sys2Proof

/-- The instructions. `x` and `y` are register numbers, `kk` an 8-bit immediate, `n` a 4-bit immediate, `nnn` a
12-bit address (R51, R53). Each docstring names the pattern of R55 and the rule that gives the meaning. -/
inductive Instr where
  /-- `00E0`: clear the display (R110). -/
  | cls
  /-- `00EE`: return (R70). -/
  | ret
  /-- `1nnn`: jump (R71). -/
  | jp (nnn : BitVec 12)
  /-- `2nnn`: call (R72). -/
  | call (nnn : BitVec 12)
  /-- `3xkk`: skip if `Vx = kk` (R74). -/
  | seImm (x : Reg) (kk : Byte)
  /-- `4xkk`: skip if `Vx ≠ kk` (R75). -/
  | sneImm (x : Reg) (kk : Byte)
  /-- `5xy0`: skip if `Vx = Vy` (R76). -/
  | seReg (x y : Reg)
  /-- `6xkk`: load an immediate (R80). -/
  | ldImm (x : Reg) (kk : Byte)
  /-- `7xkk`: add an immediate (R81). -/
  | addImm (x : Reg) (kk : Byte)
  /-- `8xy0`: copy a register (R82). -/
  | ldReg (x y : Reg)
  /-- `8xy1`: bitwise or (R83). -/
  | orReg (x y : Reg)
  /-- `8xy2`: bitwise and (R84). -/
  | andReg (x y : Reg)
  /-- `8xy3`: bitwise exclusive or (R85). -/
  | xorReg (x y : Reg)
  /-- `8xy4`: add with carry out (R87). -/
  | addReg (x y : Reg)
  /-- `8xy5`: subtract (R88). -/
  | subReg (x y : Reg)
  /-- `8xy6`: shift right by one; `y` is in the word and ignored by the operation (R89). -/
  | shr (x y : Reg)
  /-- `8xy7`: reverse subtract (R90). -/
  | subnReg (x y : Reg)
  /-- `8xyE`: shift left by one; `y` is in the word and ignored by the operation (R91). -/
  | shl (x y : Reg)
  /-- `9xy0`: skip if `Vx ≠ Vy` (R77). -/
  | sneReg (x y : Reg)
  /-- `Annn`: load the index register (R100). -/
  | ldI (nnn : BitVec 12)
  /-- `Bnnn`: computed jump (R73). -/
  | jpV0 (nnn : BitVec 12)
  /-- `Cxkk`: random byte under a mask (R92). -/
  | rnd (x : Reg) (kk : Byte)
  /-- `Dxyn`: draw a sprite of `n` rows (R111). -/
  | drw (x y : Reg) (n : BitVec 4)
  /-- `Ex9E`: skip if the key is down (R123). -/
  | skp (x : Reg)
  /-- `ExA1`: skip if the key is up (R124). -/
  | sknp (x : Reg)
  /-- `Fx07`: read the delay timer (R120). -/
  | ldVxDT (x : Reg)
  /-- `Fx0A`: wait for a key (R125). -/
  | ldVxK (x : Reg)
  /-- `Fx15`: write the delay timer (R121). -/
  | ldDTVx (x : Reg)
  /-- `Fx18`: write the sound timer (R122). -/
  | ldSTVx (x : Reg)
  /-- `Fx1E`: add to the index register (R101). -/
  | addI (x : Reg)
  /-- `Fx29`: address of a glyph (R102). -/
  | ldF (x : Reg)
  /-- `Fx33`: decimal digits to memory (R103). -/
  | ldB (x : Reg)
  /-- `Fx55`: store `V0 .. Vx` (R104). -/
  | storeRegs (x : Reg)
  /-- `Fx65`: load `V0 .. Vx` (R105). -/
  | loadRegs (x : Reg)
  /-- Any word that matches no pattern (R57, R58). -/
  | unrecognized (word : Word)
  deriving DecidableEq, Repr

end Sys2Proof
end

