-- ==== Sys2Proof/Decode.lean ====
section
/-! DEFINITION. Decoding (30_encoding.md rules R50 to R59) and, after it, the encoder written from the same formats
(R52). The decoder is total on words; on bytes it rejects, by name, only what is too short to be a word. -/

namespace Sys2Proof

/-! ### Fields of the word (R51) -/

/-- `f = opcode[15:12]`, the family. -/
def fieldF (w : Word) : BitVec 4 := w.extractLsb' 12 4

/-- `x = opcode[11:8]`, a register number. -/
def fieldX (w : Word) : Reg := (w.extractLsb' 8 4).toFin

/-- `y = opcode[7:4]`, a register number. -/
def fieldY (w : Word) : Reg := (w.extractLsb' 4 4).toFin

/-- `n = opcode[3:0]`. -/
def fieldN (w : Word) : BitVec 4 := w.extractLsb' 0 4

/-- `kk = opcode[7:0]`. -/
def fieldKK (w : Word) : Byte := w.extractLsb' 0 8

/-- `nnn = opcode[11:0]`. -/
def fieldNNN (w : Word) : BitVec 12 := w.extractLsb' 0 12

/-! ### The opcode table (R55) -/

/-- One row of R55: its number there, `mask` and `match`. -/
structure OpcodeRow where
  number : Nat
  mask : Word
  pattern : Word
  deriving DecidableEq, Repr

/-- R55: "a word `w` is the instruction iff `w AND mask = match`". -/
def OpcodeRow.accepts (r : OpcodeRow) (w : Word) : Bool := w &&& r.mask == r.pattern

/-- The 34 rows of R55, in the table's order. -/
def opcodeTable : List OpcodeRow :=
  [⟨1, 0xFFFF, 0x00E0⟩,
   ⟨2, 0xFFFF, 0x00EE⟩,
   ⟨3, 0xF000, 0x1000⟩,
   ⟨4, 0xF000, 0x2000⟩,
   ⟨5, 0xF000, 0x3000⟩,
   ⟨6, 0xF000, 0x4000⟩,
   ⟨7, 0xF00F, 0x5000⟩,
   ⟨8, 0xF000, 0x6000⟩,
   ⟨9, 0xF000, 0x7000⟩,
   ⟨10, 0xF00F, 0x8000⟩,
   ⟨11, 0xF00F, 0x8001⟩,
   ⟨12, 0xF00F, 0x8002⟩]
  ++ [⟨13, 0xF00F, 0x8003⟩,
   ⟨14, 0xF00F, 0x8004⟩,
   ⟨15, 0xF00F, 0x8005⟩,
   ⟨16, 0xF00F, 0x8006⟩,
   ⟨17, 0xF00F, 0x8007⟩,
   ⟨18, 0xF00F, 0x800E⟩,
   ⟨19, 0xF00F, 0x9000⟩,
   ⟨20, 0xF000, 0xA000⟩,
   ⟨21, 0xF000, 0xB000⟩,
   ⟨22, 0xF000, 0xC000⟩,
   ⟨23, 0xF000, 0xD000⟩,
   ⟨24, 0xF0FF, 0xE09E⟩]
  ++ [⟨25, 0xF0FF, 0xE0A1⟩,
   ⟨26, 0xF0FF, 0xF007⟩,
   ⟨27, 0xF0FF, 0xF00A⟩,
   ⟨28, 0xF0FF, 0xF015⟩,
   ⟨29, 0xF0FF, 0xF018⟩,
   ⟨30, 0xF0FF, 0xF01E⟩,
   ⟨31, 0xF0FF, 0xF029⟩,
   ⟨32, 0xF0FF, 0xF033⟩,
   ⟨33, 0xF0FF, 0xF055⟩,
   ⟨34, 0xF0FF, 0xF065⟩]

/-- Some row of R55 accepts the word; the words that none accepts are those of R57 and R58. -/
def recognized (w : Word) : Bool := opcodeTable.any (fun r => r.accepts w)

/-- The number in R55 of the row an instruction stands for; 0 for the default row. -/
def Instr.rowNumber : Instr → Nat
  | .cls => 1
  | .ret => 2
  | .jp _ => 3
  | .call _ => 4
  | .seImm _ _ => 5
  | .sneImm _ _ => 6
  | .seReg _ _ => 7
  | .ldImm _ _ => 8
  | .addImm _ _ => 9
  | .ldReg _ _ => 10
  | .orReg _ _ => 11
  | .andReg _ _ => 12
  | .xorReg _ _ => 13
  | .addReg _ _ => 14
  | .subReg _ _ => 15
  | .shr _ _ => 16
  | .subnReg _ _ => 17
  | .shl _ _ => 18
  | .sneReg _ _ => 19
  | .ldI _ => 20
  | .jpV0 _ => 21
  | .rnd _ _ => 22
  | .drw _ _ _ => 23
  | .skp _ => 24
  | .sknp _ => 25
  | .ldVxDT _ => 26
  | .ldVxK _ => 27
  | .ldDTVx _ => 28
  | .ldSTVx _ => 29
  | .addI _ => 30
  | .ldF _ => 31
  | .ldB _ => 32
  | .storeRegs _ => 33
  | .loadRegs _ => 34
  | .unrecognized _ => 0

/-! ### Decoding a word (R54, R56) -/

/-- Family `0`: the whole word is compared (R54). -/
def decode0 (w : Word) : Instr :=
  if w = 0x00E0 then .cls else if w = 0x00EE then .ret else .unrecognized w

/-- Family `5`: the pattern fixes `n = 0` (R56, decision D10; log 13). -/
def decode5 (w : Word) : Instr :=
  if fieldN w = 0 then .seReg (fieldX w) (fieldY w) else .unrecognized w

/-- Family `8`: secondary decode on `n` (R54). -/
def decode8 (w : Word) : Instr :=
  match (fieldN w).toNat with
  | 0x0 => .ldReg (fieldX w) (fieldY w)
  | 0x1 => .orReg (fieldX w) (fieldY w)
  | 0x2 => .andReg (fieldX w) (fieldY w)
  | 0x3 => .xorReg (fieldX w) (fieldY w)
  | 0x4 => .addReg (fieldX w) (fieldY w)
  | 0x5 => .subReg (fieldX w) (fieldY w)
  | 0x6 => .shr (fieldX w) (fieldY w)
  | 0x7 => .subnReg (fieldX w) (fieldY w)
  | 0xE => .shl (fieldX w) (fieldY w)
  | _ => .unrecognized w

/-- Family `9`: the pattern fixes `n = 0` (R56, decision D10; log 13). -/
def decode9 (w : Word) : Instr :=
  if fieldN w = 0 then .sneReg (fieldX w) (fieldY w) else .unrecognized w

/-- Family `E`: secondary decode on `kk` (R54). -/
def decodeE (w : Word) : Instr :=
  match (fieldKK w).toNat with
  | 0x9E => .skp (fieldX w)
  | 0xA1 => .sknp (fieldX w)
  | _ => .unrecognized w

/-- Family `F`: secondary decode on `kk` (R54). -/
def decodeF (w : Word) : Instr :=
  match (fieldKK w).toNat with
  | 0x07 => .ldVxDT (fieldX w)
  | 0x0A => .ldVxK (fieldX w)
  | 0x15 => .ldDTVx (fieldX w)
  | 0x18 => .ldSTVx (fieldX w)
  | 0x1E => .addI (fieldX w)
  | 0x29 => .ldF (fieldX w)
  | 0x33 => .ldB (fieldX w)
  | 0x55 => .storeRegs (fieldX w)
  | 0x65 => .loadRegs (fieldX w)
  | _ => .unrecognized w

/-- R54: "Decode is a total function from 16-bit words to the 34 instructions plus `UNRECOGNIZED`"; the family
nibble selects, and families `0`, `5`, `8`, `9`, `E`, `F` look further. -/
def decodeWord (w : Word) : Instr :=
  match (fieldF w).toNat with
  | 0x0 => decode0 w
  | 0x1 => .jp (fieldNNN w)
  | 0x2 => .call (fieldNNN w)
  | 0x3 => .seImm (fieldX w) (fieldKK w)
  | 0x4 => .sneImm (fieldX w) (fieldKK w)
  | 0x5 => decode5 w
  | 0x6 => .ldImm (fieldX w) (fieldKK w)
  | 0x7 => .addImm (fieldX w) (fieldKK w)
  | 0x8 => decode8 w
  | 0x9 => decode9 w
  | 0xA => .ldI (fieldNNN w)
  | 0xB => .jpV0 (fieldNNN w)
  | 0xC => .rnd (fieldX w) (fieldKK w)
  | 0xD => .drw (fieldX w) (fieldY w) (fieldN w)
  | 0xE => decodeE w
  | _ => decodeF w

/-! ### Bytes -/

/-- Big-endian combination of two bytes, `mem[pc] * 256 + mem[pc+1]` (R34, R60). -/
def wordOfBytes (hi lo : Byte) : Word := BitVec.cast (show 8 + 8 = 16 from rfl) (hi ++ lo)

/-- The two bytes of a word as they lie in memory, the high byte first (R34, R63). -/
def bytesOfWord (w : Word) : List Byte := [w.extractLsb' 8 8, w.extractLsb' 0 8]

/-- Why bytes are no instruction. No word is rejected (R57); only a list too short to be a word is. -/
inductive DecodeError where
  /-- Fewer than the two bytes every instruction has (R50). -/
  | truncated
  deriving DecidableEq, Repr

/-- Decode the instruction at the head of a list of bytes and return the rest (R50, R59: always two bytes). -/
def decodeBytes : List Byte → Except DecodeError (Instr × List Byte)
  | hi :: lo :: rest => .ok (decodeWord (wordOfBytes hi lo), rest)
  | _ => .error .truncated

/-- The bytes, as memory holds them, of the table word whose low `nbits` bits are given; bits above are zero. -/
def tableBytes (nbits w : Nat) : List Byte := bytesOfWord (BitVec.ofNat 16 (w % 2 ^ min nbits 16))

/-- The instruction the decoder reads from a word numbered as spec/opcode_table.json numbers its bits. -/
def decodeTableWord (nbits w : Nat) : Option Instr :=
  match decodeBytes (tableBytes nbits w) with
  | .ok (i, _) => some i
  | .error _ => none

/-! ### Encoding (formats of R52) -/

/-- A register number as its 4-bit field. -/
def nibble (x : Reg) : BitVec 4 := BitVec.ofFin x

/-- Format `NNN`. -/
def formatNNN (f : BitVec 4) (nnn : BitVec 12) : Word := BitVec.cast (show 4 + 12 = 16 from rfl) (f ++ nnn)

/-- Format `XKK`; format `X` is the same with a constant `kk`. -/
def formatXKK (f : BitVec 4) (x : Reg) (kk : Byte) : Word :=
  BitVec.cast (show 4 + 4 + 8 = 16 from rfl) (f ++ nibble x ++ kk)

/-- Format `XYN`; format `XY` is the same with a constant `n`. -/
def formatXYN (f : BitVec 4) (x y : Reg) (n : BitVec 4) : Word :=
  BitVec.cast (show 4 + 4 + 4 + 4 = 16 from rfl) (f ++ nibble x ++ nibble y ++ n)

/-- The word of an instruction, by the layouts of R52 and the constant digits of R55. -/
def encode : Instr → Word
  | .cls => 0x00E0
  | .ret => 0x00EE
  | .jp nnn => formatNNN 0x1 nnn
  | .call nnn => formatNNN 0x2 nnn
  | .seImm x kk => formatXKK 0x3 x kk
  | .sneImm x kk => formatXKK 0x4 x kk
  | .seReg x y => formatXYN 0x5 x y 0x0
  | .ldImm x kk => formatXKK 0x6 x kk
  | .addImm x kk => formatXKK 0x7 x kk
  | .ldReg x y => formatXYN 0x8 x y 0x0
  | .orReg x y => formatXYN 0x8 x y 0x1
  | .andReg x y => formatXYN 0x8 x y 0x2
  | .xorReg x y => formatXYN 0x8 x y 0x3
  | .addReg x y => formatXYN 0x8 x y 0x4
  | .subReg x y => formatXYN 0x8 x y 0x5
  | .shr x y => formatXYN 0x8 x y 0x6
  | .subnReg x y => formatXYN 0x8 x y 0x7
  | .shl x y => formatXYN 0x8 x y 0xE
  | .sneReg x y => formatXYN 0x9 x y 0x0
  | .ldI nnn => formatNNN 0xA nnn
  | .jpV0 nnn => formatNNN 0xB nnn
  | .rnd x kk => formatXKK 0xC x kk
  | .drw x y n => formatXYN 0xD x y n
  | .skp x => formatXKK 0xE x 0x9E
  | .sknp x => formatXKK 0xE x 0xA1
  | .ldVxDT x => formatXKK 0xF x 0x07
  | .ldVxK x => formatXKK 0xF x 0x0A
  | .ldDTVx x => formatXKK 0xF x 0x15
  | .ldSTVx x => formatXKK 0xF x 0x18
  | .addI x => formatXKK 0xF x 0x1E
  | .ldF x => formatXKK 0xF x 0x29
  | .ldB x => formatXKK 0xF x 0x33
  | .storeRegs x => formatXKK 0xF x 0x55
  | .loadRegs x => formatXKK 0xF x 0x65
  | .unrecognized w => w

/-- The instruction word's bytes in memory order (R34, R63). -/
def encodeBytes (i : Instr) : List Byte := bytesOfWord (encode i)

end Sys2Proof
end

