-- ==== Sys2Proof/Machine/State.lean ====
section
/-! DEFINITION. The state of the machine (10_state.md rules R10 to R27), the reasons a step can stop (60_exceptions.md
rules R130 to R134), and the state right after reset (R26, R160). -/

namespace Sys2Proof.Machine

/-- The display buffer: 32 rows of 64 pixels (`DISP_H`, `DISP_W` of R4), `fb[y][x]`, row-major, `true` for a set pixel (R19). -/
abbrev Frame := Vector (Vector Bool 64) 32

/-- Memory: (address, byte) pairs with strictly rising addresses, no pair equal to what an unlisted address reads as,
which is that address's byte in the reset state (R20, R21; `memInit` in Ops.lean; log 24). -/
abbrev Memory := List Host.Cell

/-- The whole state of the machine is `(V, I, pc, stack, DT, ST, mem, fb)` (10_state.md). The four fields after them
are the inputs of the coming step (R24, R25, R126), which the spec passes to `step` as arguments and the fixed form of
`exec` makes part of the state (logs 1 to 4). -/
structure State where
  /-- The general registers `V0 .. VF` (R10); `VF` is the only flag (R12). -/
  V : Vector Byte 16
  /-- The index register (R13). -/
  I : Word
  /-- The program counter, a byte address that is never masked and need not be even (R14). -/
  pc : Word
  /-- The call stack, the most recently pushed return address first (R16; log 9). -/
  stack : List Word
  /-- The delay timer (R17). -/
  DT : Byte
  /-- The sound timer (R18). -/
  ST : Byte
  /-- Memory (R20). -/
  mem : Memory
  /-- The display buffer (R19). -/
  fb : Frame
  /-- INPUT: the key lines the host holds, bit `i` set when key `i` is down (R24); `none` where the host has said
  nothing: each step that reads the keys then sees a free vector (log 1). -/
  keys : Option (BitVec 16)
  /-- INPUT: the byte the host has supplied for the next `Cxkk` (R25); `none`: a free value (log 2). -/
  rnd : Option Byte
  /-- INPUT: the answer supplied for the next key query with an index above 15 (R126); `none`: a free value (log 3). -/
  keyAnswer : Option Bool
  /-- The model's own: how many free values have been taken from Config (log 4). -/
  draws : Nat
  deriving DecidableEq, Repr

/-- `RuntimeFault` (R130, R134): why a step ended without a next state. Each carries the rest of the record
`(kind, fault_pc, fault_opcode)`: the address of the instruction and its word, no word where the fetch failed. The
state is what it was before the step (R135). Every one of them is the spec's own, so each is safe: the hardware
reports it too. -/
inductive Fault where
  /-- Raised by `00EE` on an empty stack (R70, R131); safe. -/
  | stackUnderflow (faultPc : Word) (faultOpcode : Option Word)
  /-- Raised by `2nnn` on a full stack (R72, R132); safe. -/
  | stackOverflow (faultPc : Word) (faultOpcode : Option Word)
  /-- Raised by a fetch with `pc > 4094` and by `Dxyn`, `Fx33`, `Fx55`, `Fx65` whose range leaves memory (R133); safe. -/
  | memoryOutOfBounds (faultPc : Word) (faultOpcode : Option Word)
  deriving DecidableEq, Repr

/-- What the model gives no meaning to. -/
inductive Refusal where
  /-- An instruction without a meaning yet, by its mnemonic; raised by no arm of the present `exec`; safe. -/
  | notModelled (mnemonic : String)
  /-- A host operation out of the one order the spec describes; raised by `Session.apply` only, never by `step`
  (R161, decision D25; log 6); safe: the spec gives it no meaning. -/
  | hostOrder
  deriving DecidableEq, Repr

/-- The machine right after reset: construction followed by `loadFont()` (R26, R160). Memory lists nothing because
an unlisted address reads as its reset byte. The inputs are no state of the machine: the host has supplied none
(logs 1 to 4). -/
def State.reset : State where
  V := Vector.replicate 16 0
  I := 0
  pc := BitVec.ofNat 16 Config.pcReset
  stack := []
  DT := 0
  ST := 0
  mem := []
  fb := Vector.replicate 32 (Vector.replicate 64 false)
  keys := none
  rnd := none
  keyAnswer := none
  draws := 0

end Sys2Proof.Machine
end

