-- ==== Sys2Proof/Machine/Ops.lean ====
section
/-! DEFINITION. The named operations over memory, registers, the program counter, the stack and the display, fetching
a word, and ending a step with a fault. Everything else reads and writes the state through these. -/

namespace Sys2Proof.Machine

/-! ### Memory (20_memory.md) -/

/-- `FONT`, the 80 glyph bytes, five to a digit, top row first (R21). -/
def fontTable : List Byte :=
  [0xF0, 0x90, 0x90, 0x90, 0xF0, 0x20, 0x60, 0x20, 0x20, 0x70,
   0xF0, 0x10, 0xF0, 0x80, 0xF0, 0xF0, 0x10, 0xF0, 0x10, 0xF0]
  ++ [0x90, 0x90, 0xF0, 0x10, 0x10, 0xF0, 0x80, 0xF0, 0x10, 0xF0,
      0xF0, 0x80, 0xF0, 0x90, 0xF0, 0xF0, 0x10, 0x20, 0x40, 0x40]
  ++ [0xF0, 0x90, 0xF0, 0x90, 0xF0, 0xF0, 0x90, 0xF0, 0x10, 0xF0,
      0xF0, 0x90, 0xF0, 0x90, 0x90, 0xE0, 0x90, 0xE0, 0x90, 0xE0]
  ++ [0xF0, 0x80, 0x80, 0x80, 0xF0, 0xE0, 0x90, 0x90, 0x90, 0xE0,
      0xF0, 0x80, 0xF0, 0x80, 0xF0, 0xF0, 0x80, 0xF0, 0x80, 0x80]

/-- What an address that memory does not list reads as: its byte in the reset state, the font or zero (R20, R26). -/
def memInit (a : Nat) : Byte :=
  if Config.fontBase ≤ a ∧ a < Config.fontBase + Config.fontBytes then fontTable.getD (a - Config.fontBase) 0 else 0

/-- The byte at an address. -/
def Memory.read : Memory → Nat → Byte
  | [], a => memInit a
  | c :: m, a => if c.1 = a then c.2 else Memory.read m a

/-- Drop what is listed at an address. -/
def Memory.erase : Memory → Nat → Memory
  | [], _ => []
  | c :: m, a => if c.1 = a then Memory.erase m a else c :: Memory.erase m a

/-- Put a pair before the first larger address. -/
def Memory.insert : Memory → Nat → Byte → Memory
  | [], a, v => [(a, v)]
  | c :: m, a, v => if a < c.1 then (a, v) :: c :: m else c :: Memory.insert m a v

/-- Change exactly the one byte addressed (R36), keeping the canonical form. -/
def Memory.write (m : Memory) (a : Nat) (v : Byte) : Memory :=
  if v = memInit a then Memory.erase m a else Memory.insert (Memory.erase m a) a v

/-- The canonical form: strictly rising addresses inside `0 .. 4095`, no pair equal to what its address reads as
unlisted. -/
def Memory.wf : Memory → Bool
  | [] => true
  | c :: m => decide (c.1 < Config.memSize) && decide (c.2 ≠ memInit c.1) && m.all (fun d => decide (c.1 < d.1)) && Memory.wf m

/-- Write bytes at rising addresses from `a` (R34: multi-byte data lies at ascending addresses). -/
def Memory.writeBytes : Memory → Nat → List Byte → Memory
  | m, _, [] => m
  | m, a, v :: vs => Memory.writeBytes (Memory.write m a v) (a + 1) vs

/-- `CheckRange(addr, len)` of R7 and R37: no fault. The address is an unbounded number (R37(a)); a length of 0 is
never out of range (R37(c)). -/
def inRange (addr len : Nat) : Bool := len == 0 || decide (addr + len ≤ Config.memSize)

/-- `mem[a]`. It is total; every use follows the range check R36 asks for (log 24). -/
def State.byteAt (s : State) (a : Nat) : Byte := Memory.read s.mem a

/-- `MemWrite` of a run of bytes; every use follows `inRange`. -/
def State.storeBytes (s : State) (a : Nat) (vs : List Byte) : State := { s with mem := Memory.writeBytes s.mem a vs }

/-! ### Fetch (30_encoding.md R60) -/

/-- `MemRead(pc, 2)`, the fetch: none iff `pc > 4094`; both bytes are checked before either is used (R36, R60,
decision D5). The bytes combine big-endian (R34). -/
def State.fetchWord (s : State) : Option Word :=
  if s.pc.toNat + 2 ≤ Config.memSize then
    some (wordOfBytes (s.byteAt s.pc.toNat) (s.byteAt (s.pc.toNat + 1)))
  else none

/-- Store the bytes of a word where the fetch will read it; nothing where the fetch can read nothing. -/
def State.placeAtPc (s : State) (bytes : List Byte) : State :=
  if s.pc.toNat + bytes.length ≤ Config.memSize then s.storeBytes s.pc.toNat bytes else s

/-! ### Registers -/

/-- Read `V[r]` (R10). -/
def State.readV (s : State) (r : Reg) : Byte := s.V[r.val]

/-- `V[r] <- v` (R10). -/
def State.writeV (s : State) (r : Reg) (v : Byte) : State := { s with V := s.V.set r.val v }

/-- `I <- v` (R13). -/
def State.writeI (s : State) (v : Word) : State := { s with I := v }

/-- `DT <- v` (R17). -/
def State.writeDT (s : State) (v : Byte) : State := { s with DT := v }

/-- `ST <- v` (R18). -/
def State.writeST (s : State) (v : Byte) : State := { s with ST := v }

/-! ### Program counter (R15, R61): always the last effect of an instruction -/

/-- `pc <- target`. -/
def State.jumpTo (s : State) (target : Word) : State := { s with pc := target }

/-- The default advance, `pc <- pc + 2`. In a step `pc ≤ 4094`, so nothing wraps (R15; log 10). -/
def State.advance (s : State) : State := s.jumpTo (s.pc + 2)

/-- "advance 4 or 2": `pc <- pc + 4` if the condition holds, else `pc <- pc + 2` (R61). -/
def State.skipIf (s : State) (c : Bool) : State := s.jumpTo (if c then s.pc + 4 else s.pc + 2)

/-! ### Call stack (R16) -/

/-- `depth = length(stack)`. -/
def State.depth (s : State) : Nat := s.stack.length

/-- `push(v)`. -/
def State.push (s : State) (v : Word) : State := { s with stack := v :: s.stack }

/-- The stack holds `STACK_MAX` entries (R72). It can hold no more (log 8). -/
def State.stackFull (s : State) : Bool := decide (Config.stackMax ≤ s.depth)

/-! ### Display (R19) -/

/-- The pixel at column `tx`, row `ty`. -/
def Frame.pixel (fb : Frame) (tx : Fin 64) (ty : Fin 32) : Bool := fb[ty.val][tx.val]

/-- `fb[ty][tx] <- fb[ty][tx] XOR 1`. -/
def Frame.flip (fb : Frame) (tx : Fin 64) (ty : Fin 32) : Frame :=
  fb.set ty.val (fb[ty.val].set tx.val (!fb[ty.val][tx.val]))

/-- All 2048 pixels 0 (R110). -/
def Frame.blank : Frame := Vector.replicate 32 (Vector.replicate 64 false)

/-- Replace the display buffer. -/
def State.writeFb (s : State) (fb : Frame) : State := { s with fb := fb }

/-! ### Inputs of the step (R24, R25, R126) -/

/-- The key vector of this step: what the host holds, else a free vector (R24: "constant for the whole of that step";
log 1). -/
def State.keyLines (s : State) : BitVec 16 := s.keys.getD (Config.freeKeys s.draws)

/-- A step has read the keys. What the host holds stays; a free vector is not seen again (log 1). -/
def State.usedKeys (s : State) : State := if s.keys.isSome then s else { s with draws := s.draws + 1 }

/-- The random byte of this step: what the host has supplied, else a free value (R25; log 2). -/
def State.randomByte (s : State) : Byte := s.rnd.getD (Config.freeRnd s.draws)

/-- A `Cxkk` has used its byte (R25: "exactly one byte per executed `Cxkk`"; log 2). -/
def State.usedRandom (s : State) : State := { s with rnd := none, draws := s.draws + 1 }

/-- The answer to a key query with an index above 15: what was supplied, else a free value (R126; log 3). -/
def State.outsideAnswer (s : State) : Bool := s.keyAnswer.getD (Config.freeKeyAnswer s.draws)

/-- Such a query has used its answer (R126: "chosen anew at each such query"; log 3). -/
def State.usedAnswer (s : State) : State := { s with keyAnswer := none, draws := s.draws + 1 }

/-! ### Ending a step with a fault (R134, R135) -/

/-- `raise RuntimeFault(kind)`: abandon the step with no state change and report `(kind, pc, opcode)` to the host.
This is all that taking an exception is on this machine: no vector, no saved state, no handler, and no return from one
(R135, R137). -/
def raiseFault (kind : Word → Option Word → Fault) (opcode : Option Word) (s : State) :
    Host.Outcome State Fault Refusal :=
  .fault (kind s.pc opcode)

/-- `fault_pc` of the record (R134). -/
def Fault.faultPc : Fault → Word
  | .stackUnderflow pc _ => pc
  | .stackOverflow pc _ => pc
  | .memoryOutOfBounds pc _ => pc

/-- `fault_opcode` of the record (R134). -/
def Fault.faultOpcode : Fault → Option Word
  | .stackUnderflow _ op => op
  | .stackOverflow _ op => op
  | .memoryOutOfBounds _ op => op

/-- The numeric label the spec gives the kind (R130; it has no meaning to the machine). -/
def Fault.code : Fault → Nat
  | .stackUnderflow _ _ => 1
  | .stackOverflow _ _ => 2
  | .memoryOutOfBounds _ _ => 3

end Sys2Proof.Machine
end

