-- ==== Sys2Proof/Machine/Operands.lean ====
section
/-! DEFINITION. Operand forms: immediates widened to 16 bits (R53), the effective address `I + k` (R106), blocks of
registers (R104, R105), decimal digits (R103), and the key query (R126). -/

namespace Sys2Proof.Machine

/-- `zext_16(nnn)` (R53). -/
def addr16 (nnn : BitVec 12) : Word := nnn.setWidth 16

/-- A byte widened to 16 bits. -/
def byte16 (v : Byte) : Word := v.setWidth 16

/-- The base of every data access, as an unbounded number (R37(a), R106). -/
def State.base (s : State) : Nat := s.I.toNat

/-- The number of registers in the block `V0 .. Vx` (R104, R105). -/
def blockLength (x : Reg) : Nat := x.val + 1

/-- The values of `V0 .. Vx`, in order (R104). -/
def State.blockValues (s : State) (x : Reg) : List Byte := s.V.toList.take (blockLength x)

/-- `for k = 0 .. x: V[k] <- mem[I + k]`; the registers above `x` keep their values (R105). -/
def State.loadBlock (s : State) (x : Reg) : State :=
  { s with V := Vector.ofFn (fun k : Fin 16 => if k ≤ x then s.byteAt (s.base + k.val) else s.V[k.val]) }

/-- The hundreds, tens and units digits of a byte, in that order (R103, decision D16). -/
def decimalDigits (v : Byte) : List Byte :=
  [BitVec.ofNat 8 (v.toNat / 100), BitVec.ofNat 8 (v.toNat / 10 % 10), BitVec.ofNat 8 (v.toNat % 10)]

/-- The address of the glyph for a value, `0x050 + v * 5`, the whole byte used (R102, decision D15). -/
def glyphAddress (v : Byte) : Word := BitVec.ofNat 16 (Config.fontBase + v.toNat * 5)

/-- `KeyDown(v)`: the key line for an index up to 15, else the unconstrained answer (R126, decision D20; log 3). The
index is not masked. -/
def State.keyDown (s : State) (v : Byte) : Bool :=
  if v.toNat ≤ 15 then s.keyLines.getLsbD v.toNat else s.outsideAnswer

/-- The inputs a key query has read: the key lines for an index up to 15, the answer for one above (R126). -/
def State.afterKeyQuery (s : State) (v : Byte) : State := if v.toNat ≤ 15 then s.usedKeys else s.usedAnswer

/-- The scan of `Fx0A`: keys `0 .. F` in ascending order, the first one down (R125). -/
def State.firstKeyDown (s : State) : Option Reg := (List.finRange 16).find? (fun i => s.keyLines.getLsbD i.val)

end Sys2Proof.Machine
end

