-- ==== Sys2Proof/Machine/Flags.lean ====
section
/-! DEFINITION. The flag computations: what each flag-writing instruction puts into `VF` (R12), and the write itself,
which comes before the result write (R86, decision D8; log 11). -/

namespace Sys2Proof.Machine

/-- `V[15] <- bool(c)`. -/
def State.writeFlag (s : State) (c : Bool) : State := s.writeV VF (boolByte c)

/-- Carry of `8xy4`: the unsigned sum exceeds 255 (R87). -/
def carry (a b : Byte) : Bool := decide (a.toNat + b.toNat > 255)

/-- Flag of `8xy5` and `8xy7`: strict unsigned greater-than, false for equal values (R88, R90, decision D9; log 12). -/
def greater (a b : Byte) : Bool := decide (a.toNat > b.toNat)

/-- The bit `8xy6` shifts out: bit 0 (R89). -/
def lowBit (a : Byte) : Bool := a.getLsbD 0

/-- The bit `8xyE` shifts out: bit 7 (R91). -/
def highBit (a : Byte) : Bool := a.getLsbD 7

end Sys2Proof.Machine
end

