-- ==== Sys2Proof/Machine/Alu.lean ====
section
/-! DEFINITION. Register load, arithmetic, logic, shifts and the random byte (41_alu.md rules R80 to R93). The five
flag-writing instructions are sequences of statements, each reading the registers as the one before left them (R86,
decision D8; log 11): first the flag, then the result. -/

namespace Sys2Proof.Machine

/-- `6xkk` (R80). -/
def execLdImm (x : Reg) (kk : Byte) (s : State) : Host.Outcome State Fault Refusal :=
  .next (s.writeV x kk).advance

/-- `7xkk` (R81): modulo 256, no flag. -/
def execAddImm (x : Reg) (kk : Byte) (s : State) : Host.Outcome State Fault Refusal :=
  .next (s.writeV x (s.readV x + kk)).advance

/-- `8xy0` (R82). -/
def execLdReg (x y : Reg) (s : State) : Host.Outcome State Fault Refusal :=
  .next (s.writeV x (s.readV y)).advance

/-- `8xy1` (R83). -/
def execOrReg (x y : Reg) (s : State) : Host.Outcome State Fault Refusal :=
  .next (s.writeV x (s.readV x ||| s.readV y)).advance

/-- `8xy2` (R84). -/
def execAndReg (x y : Reg) (s : State) : Host.Outcome State Fault Refusal :=
  .next (s.writeV x (s.readV x &&& s.readV y)).advance

/-- `8xy3` (R85). -/
def execXorReg (x y : Reg) (s : State) : Host.Outcome State Fault Refusal :=
  .next (s.writeV x (s.readV x ^^^ s.readV y)).advance

/-- `8xy4` (R87): the sum is formed before either write. -/
def execAddReg (x y : Reg) (s : State) : Host.Outcome State Fault Refusal :=
  let sum := s.readV x + s.readV y
  let flagged := s.writeFlag (carry (s.readV x) (s.readV y))
  .next (flagged.writeV x sum).advance

/-- `8xy5` (R88). -/
def execSubReg (x y : Reg) (s : State) : Host.Outcome State Fault Refusal :=
  let flagged := s.writeFlag (greater (s.readV x) (s.readV y))
  .next (flagged.writeV x (flagged.readV x - flagged.readV y)).advance

/-- `8xy6` (R89): `y` plays no part. -/
def execShr (x _y : Reg) (s : State) : Host.Outcome State Fault Refusal :=
  let flagged := s.writeFlag (lowBit (s.readV x))
  .next (flagged.writeV x (flagged.readV x >>> 1)).advance

/-- `8xy7` (R90). -/
def execSubnReg (x y : Reg) (s : State) : Host.Outcome State Fault Refusal :=
  let flagged := s.writeFlag (greater (s.readV y) (s.readV x))
  .next (flagged.writeV x (flagged.readV y - flagged.readV x)).advance

/-- `8xyE` (R91): `y` plays no part. -/
def execShl (x _y : Reg) (s : State) : Host.Outcome State Fault Refusal :=
  let flagged := s.writeFlag (highBit (s.readV x))
  .next (flagged.writeV x (flagged.readV x <<< 1)).advance

/-- `Cxkk` (R92): one byte of the random source is used. -/
def execRnd (x : Reg) (kk : Byte) (s : State) : Host.Outcome State Fault Refusal :=
  .next (s.usedRandom.writeV x (s.randomByte &&& kk)).advance

end Sys2Proof.Machine
end

