-- ==== Sys2Proof/Machine/Display.lean ====
section
/-! DEFINITION. The display instructions (43_display.md rules R110 to R114): clear, and the sprite draw as the spec's
loop over rows and columns. -/

namespace Sys2Proof.Machine

/-- The display while a sprite is being drawn, and whether a set pixel has been turned off so far (R111: "sticky for
the whole instruction"). -/
structure Drawing where
  fb : Frame
  collision : Bool
  deriving DecidableEq, Repr

/-- The column a sprite column lands on: `(px + col) mod 64` (R111, C1). -/
def wrapX (px col : Nat) : Fin 64 := Fin.ofNat 64 (px + col)

/-- The row a sprite row lands on: `(py + row) mod 32` (R111, C1). -/
def wrapY (py row : Nat) : Fin 32 := Fin.ofNat 32 (py + row)

/-- The sprite bit of a column: bit `7 - col`, the most significant bit leftmost (R112, decision D12; log 14). -/
def spriteBit (b : Byte) (col : Nat) : Bool := b.getLsbD (7 - col)

/-- One column of one row: where the sprite bit is set, note a collision and flip the pixel (R111). -/
def drawPixel (px py : Nat) (b : Byte) (row col : Nat) (d : Drawing) : Drawing :=
  if spriteBit b col then
    { fb := d.fb.flip (wrapX px col) (wrapY py row)
      collision := d.collision || d.fb.pixel (wrapX px col) (wrapY py row) }
  else d

/-- The eight columns of one row (R111). -/
def drawRow (px py : Nat) (b : Byte) (row : Nat) (d : Drawing) : Drawing :=
  (List.range 8).foldl (fun d col => drawPixel px py b row col d) d

/-- The `n` rows of a sprite whose bytes lie at `I`, `I + 1`, … (R111). -/
def State.drawSprite (s : State) (px py n : Nat) : Drawing :=
  (List.range n).foldl (fun d row => drawRow px py (s.byteAt (s.base + row)) row d) { fb := s.fb, collision := false }

/-- `00E0` (R110). -/
def execCls (s : State) : Host.Outcome State Fault Refusal :=
  .next (s.writeFb Frame.blank).advance

/-- `Dxyn` (R111). The coordinates are the values of `Vx`, `Vy` from before `VF` is written (decision D11; log 14),
so `VF` is written once, with the final collision result; `n = 0` reads nothing and leaves `VF = 0` (decision D13). -/
def execDrw (x y : Reg) (n : BitVec 4) (s : State) : Host.Outcome State Fault Refusal :=
  if inRange s.base n.toNat then
    let d := s.drawSprite (s.readV x).toNat (s.readV y).toNat n.toNat
    .next ((s.writeFb d.fb).writeFlag d.collision).advance
  else raiseFault Fault.memoryOutOfBounds (some (encode (.drw x y n))) s

end Sys2Proof.Machine
end

