-- ==== Sys2Proof/Machine/Flow.lean ====
section
/-! DEFINITION. Control flow (40_flow.md rules R70 to R78) and the unrecognized words (30_encoding.md rule R57). -/

namespace Sys2Proof.Machine

/-- `00EE` (R70): pop the return address into `pc`, or `StackUnderflow`. No 2 is added. -/
def execRet (s : State) : Host.Outcome State Fault Refusal :=
  match s.stack with
  | [] => raiseFault Fault.stackUnderflow (some (encode .ret)) s
  | a :: rest => .next (State.jumpTo { s with stack := rest } a)

/-- `1nnn` (R71). The target is not checked here. -/
def execJp (nnn : BitVec 12) (s : State) : Host.Outcome State Fault Refusal :=
  .next (s.jumpTo (addr16 nnn))

/-- `2nnn` (R72): push `pc + 2`, the address after this instruction, and jump, or `StackOverflow`. -/
def execCall (nnn : BitVec 12) (s : State) : Host.Outcome State Fault Refusal :=
  if s.stackFull then raiseFault Fault.stackOverflow (some (encode (.call nnn))) s
  else .next ((s.push (s.pc + 2)).jumpTo (addr16 nnn))

/-- `Bnnn` (R73): the sum is not masked to 12 bits (decision D31; log 21). -/
def execJpV0 (nnn : BitVec 12) (s : State) : Host.Outcome State Fault Refusal :=
  .next (s.jumpTo (addr16 nnn + byte16 (s.readV V0)))

/-- `3xkk` (R74). -/
def execSeImm (x : Reg) (kk : Byte) (s : State) : Host.Outcome State Fault Refusal :=
  .next (s.skipIf (s.readV x == kk))

/-- `4xkk` (R75). -/
def execSneImm (x : Reg) (kk : Byte) (s : State) : Host.Outcome State Fault Refusal :=
  .next (s.skipIf (s.readV x != kk))

/-- `5xy0` (R76). -/
def execSeReg (x y : Reg) (s : State) : Host.Outcome State Fault Refusal :=
  .next (s.skipIf (s.readV x == s.readV y))

/-- `9xy0` (R77). -/
def execSneReg (x y : Reg) (s : State) : Host.Outcome State Fault Refusal :=
  .next (s.skipIf (s.readV x != s.readV y))

/-- A word that matches no pattern (R57): nothing but the default advance. -/
def execUnrecognized (_word : Word) (s : State) : Host.Outcome State Fault Refusal :=
  .next s.advance

end Sys2Proof.Machine
end

