-- ==== Sys2Proof/Machine/IndexMemory.lean ====
section
/-! DEFINITION. The index register and the transfers between registers and memory (42_index_memory.md rules R100 to
R106). The whole range is checked before anything changes (R37(b)); `I` is never changed by a transfer. -/

namespace Sys2Proof.Machine

/-- `Annn` (R100). -/
def execLdI (nnn : BitVec 12) (s : State) : Host.Outcome State Fault Refusal :=
  .next (s.writeI (addr16 nnn)).advance

/-- `Fx1E` (R101): modulo 65536, no flag (decision D14; log 16). -/
def execAddI (x : Reg) (s : State) : Host.Outcome State Fault Refusal :=
  .next (s.writeI (s.I + byte16 (s.readV x))).advance

/-- `Fx29` (R102). -/
def execLdF (x : Reg) (s : State) : Host.Outcome State Fault Refusal :=
  .next (s.writeI (glyphAddress (s.readV x))).advance

/-- `Fx33` (R103): three digits at `I`, `I + 1`, `I + 2`. -/
def execLdB (x : Reg) (s : State) : Host.Outcome State Fault Refusal :=
  if inRange s.base 3 then .next (s.storeBytes s.base (decimalDigits (s.readV x))).advance
  else raiseFault Fault.memoryOutOfBounds (some (encode (.ldB x))) s

/-- `Fx55` (R104): `V0 .. Vx` to `I .. I + x`. -/
def execStoreRegs (x : Reg) (s : State) : Host.Outcome State Fault Refusal :=
  if inRange s.base (blockLength x) then .next (s.storeBytes s.base (s.blockValues x)).advance
  else raiseFault Fault.memoryOutOfBounds (some (encode (.storeRegs x))) s

/-- `Fx65` (R105): `I .. I + x` to `V0 .. Vx`. -/
def execLoadRegs (x : Reg) (s : State) : Host.Outcome State Fault Refusal :=
  if inRange s.base (blockLength x) then .next (s.loadBlock x).advance
  else raiseFault Fault.memoryOutOfBounds (some (encode (.loadRegs x))) s

end Sys2Proof.Machine
end

