-- ==== Sys2Proof/Machine/TimersKeys.lean ====
section
/-! DEFINITION. Timer access and key queries (44_timers_keys.md rules R120 to R127). -/

namespace Sys2Proof.Machine

/-- `Fx07` (R120). -/
def execLdVxDT (x : Reg) (s : State) : Host.Outcome State Fault Refusal :=
  .next (s.writeV x s.DT).advance

/-- `Fx15` (R121). -/
def execLdDTVx (x : Reg) (s : State) : Host.Outcome State Fault Refusal :=
  .next (s.writeDT (s.readV x)).advance

/-- `Fx18` (R122). -/
def execLdSTVx (x : Reg) (s : State) : Host.Outcome State Fault Refusal :=
  .next (s.writeST (s.readV x)).advance

/-- `Ex9E` (R123): the key index is the value of `Vx`. -/
def execSkp (x : Reg) (s : State) : Host.Outcome State Fault Refusal :=
  .next ((s.afterKeyQuery (s.readV x)).skipIf (s.keyDown (s.readV x)))

/-- `ExA1` (R124): "up" is exactly "not down". -/
def execSknp (x : Reg) (s : State) : Host.Outcome State Fault Refusal :=
  .next ((s.afterKeyQuery (s.readV x)).skipIf (!s.keyDown (s.readV x)))

/-- What one poll of `Fx0A` does (R125): the first key down goes to `Vx`; with no key down no state of the machine
changes, `pc` included. -/
def State.pollKey (s : State) (x : Reg) : State :=
  match s.firstKeyDown with
  | some k => (s.usedKeys.writeV x (BitVec.ofNat 8 k.val)).advance
  | none => s.usedKeys

/-- `Fx0A` (R125): a step that finds no key succeeds all the same. -/
def execLdVxK (x : Reg) (s : State) : Host.Outcome State Fault Refusal :=
  .next (s.pollKey x)

end Sys2Proof.Machine
end

