-- ==== Sys2Proof/Machine/Step.lean ====
section
/-! DEFINITION. The `step` operation (30_encoding.md rules R60, R61), and placing a word where it fetches. -/

namespace Sys2Proof.Machine

/-- `step`: fetch two bytes at `pc`, or fault with a record that carries no opcode; decode the word; execute exactly
that one instruction. Nothing stands around `exec`: `pc` is written by the instruction itself (R60, R61). The inputs
`keys` and `rnd` are read from the state (logs 1, 2). -/
def step (s : State) : Host.Outcome State Fault Refusal :=
  match s.fetchWord with
  | none => raiseFault Fault.memoryOutOfBounds none s
  | some w => exec (decodeWord w) s

/-- The state with a table word stored at `pc`, where `step` fetches next. It stands for the host's `loadProgram` of
that one word (log 6). -/
def State.withFetchWord (s : State) (nbits w : Nat) : State := s.placeAtPc (tableBytes nbits w)

end Sys2Proof.Machine
end

