-- ==== Sys2Proof/Machine/HostOps.lean ====
section
/-! DEFINITION. The transitions the host performs on the machine: staging (20_memory.md rules R40 to R42), the timer
tick (60_exceptions.md rule R140), supplying the inputs of a step, reading the display (R146), and the one order of
operations the spec gives a meaning to (R161). An execution of the machine is a list of host operations (R5). -/

namespace Sys2Proof.Machine

/-! ### Construction and staging (R160, R40, R41) -/

/-- The machine as constructed, before `loadFont`: every byte of memory is zero, the font region included (R160). -/
def State.construct : State :=
  State.reset.storeBytes Config.fontBase (List.replicate Config.fontBytes 0)

/-- `loadFont()`: the 80 font bytes to `0x050 .. 0x09F`, nothing else (R40). -/
def State.loadFont (s : State) : State := s.storeBytes Config.fontBase fontTable

/-- Why `loadProgram` fails; not a RuntimeFault (R42). -/
inductive LoadError where
  /-- `0x200 + len > 4096` (R42). -/
  | programTooLarge
  deriving DecidableEq, Repr

/-- `loadProgram(bytes)`: rejected before any byte is written if it does not fit, else copied verbatim to `0x200` and
up (R41, R42, R63). -/
def State.loadProgram (s : State) (bytes : List Byte) : Except LoadError State :=
  if Config.pcReset + bytes.length > Config.memSize then .error .programTooLarge
  else .ok (s.storeBytes Config.pcReset bytes)

/-! ### The tick (R140) -/

/-- One timer: down by 1, floored at 0, no wrap to 255 (R140). -/
def tickDown (t : Byte) : Byte := if t.toNat > 0 then t - 1 else t

/-- `tickTimers()`: both timers, independently; nothing else changes; it cannot fail (R140). -/
def State.tickTimers (s : State) : State := (s.writeDT (tickDown s.DT)).writeST (tickDown s.ST)

/-! ### Inputs and outputs (R146) -/

/-- The host presents key lines and a random byte for the coming step (R24, R25), and settles what a key query outside
the key table would be answered (R126). -/
def State.withInputs (s : State) (keys : BitVec 16) (rnd : Byte) (keyAnswer : Bool) : State :=
  { s with keys := some keys, rnd := some rnd, keyAnswer := some keyAnswer }

/-- `framebuffer()`: the 2048 pixels as they are, row-major; no effect on the machine (R146). -/
def State.framebuffer (s : State) : Frame := s.fb

/-! ### The order of operations (R161, R147) -/

/-- How far the host is in the order of R161. -/
inductive Phase where
  /-- Constructed; `loadFont` is due. -/
  | constructed
  /-- The font is in memory, the reset state (R160); `loadProgram` is due. -/
  | fontLoaded
  /-- A program is loaded; `step`, `tickTimers` and `framebuffer` are used from here on. -/
  | running
  /-- `loadProgram` failed; no operation after that has a meaning (log 26). -/
  | loadFailed
  deriving DecidableEq, Repr

/-- The operations of R146 on an instance that exists. There is none that writes registers, memory or pixels. -/
inductive HostOp where
  | loadFont
  | loadProgram (bytes : List Byte)
  | step (keys : BitVec 16) (rnd : Byte) (keyAnswer : Bool)
  | tickTimers
  | framebuffer
  deriving DecidableEq, Repr

/-- What the host gets back (the last column of R146's table). -/
inductive HostReply where
  | ok
  | programTooLarge
  | runtimeFault (record : Fault)
  | pixels (fb : Frame)
  deriving DecidableEq, Repr

/-- An instance in the host's hands: where the host is in the order, and the machine. -/
structure Session where
  phase : Phase
  machine : State
  deriving DecidableEq, Repr

/-- construct (R146, R160). -/
def Session.construct : Session := { phase := .constructed, machine := State.construct }

/-- `loadProgram` and its two results. -/
def Session.load (se : Session) (bytes : List Byte) : Session × HostReply :=
  match se.machine.loadProgram bytes with
  | .ok m => ({ phase := .running, machine := m }, .ok)
  | .error .programTooLarge => ({ se with phase := .loadFailed }, .programTooLarge)

/-- One `step` with its inputs. A fault leaves the instance as it was and hands the host the record (R134, R135); the
host may step again and gets the same record again (R137). -/
def Session.stepWith (se : Session) (keys : BitVec 16) (rnd : Byte) (keyAnswer : Bool) :
    Except Refusal (Session × HostReply) :=
  match step (se.machine.withInputs keys rnd keyAnswer) with
  | .next m => .ok ({ se with machine := m }, .ok)
  | .fault r => .ok (se, .runtimeFault r)
  | .refused r => .error r

/-- One host operation. Any order but construct, `loadFont`, `loadProgram`, then `step`, `tickTimers` and
`framebuffer` is refused: the spec gives it no meaning (R161, decision D25; logs 6, 26). -/
def Session.apply (se : Session) (op : HostOp) : Except Refusal (Session × HostReply) :=
  match se.phase, op with
  | .constructed, .loadFont => .ok ({ phase := .fontLoaded, machine := se.machine.loadFont }, .ok)
  | .fontLoaded, .loadProgram bytes => .ok (se.load bytes)
  | .running, .step keys rnd keyAnswer => se.stepWith keys rnd keyAnswer
  | .running, .tickTimers => .ok ({ se with machine := se.machine.tickTimers }, .ok)
  | .running, .framebuffer => .ok (se, .pixels se.machine.framebuffer)
  | _, _ => .error .hostOrder

/-- An execution: the operations in the order the host chose, with the replies (R5, R141, R147). -/
def Session.run (se : Session) : List HostOp → Except Refusal (Session × List HostReply)
  | [] => .ok (se, [])
  | op :: ops =>
    match se.apply op with
    | .error r => .error r
    | .ok (se', reply) =>
      match Session.run se' ops with
      | .error r => .error r
      | .ok (se'', replies) => .ok (se'', reply :: replies)

end Sys2Proof.Machine
end

