-- ==== Sys2Proof/WellFormed.lean ====
section
/-! DEFINITION. Which terms of Instr are instructions. The types already bound every operand (R51, R53: every value of
every field is legal), so one check remains: the default row stands for words that match no row (R57). -/

namespace Sys2Proof

/-- A term of Instr is well formed when some word decodes to it: an `unrecognized` word must match no row of R55. -/
def Instr.wellFormed : Instr → Bool
  | .unrecognized w => !recognized w
  | _ => true

end Sys2Proof
end

