-- ==== Sys2Proof/Safety.lean ====
section
/-! DEFINITION. The terms claims use: which parts of the state a transition leaves as they were, the invariant of the
machine, faulted and terminal states, and the set of pixels a sprite covers. -/

namespace Sys2Proof.Machine

/-! ### Frames -/

/-- The parts of the state a frame speaks of. -/
inductive Part where
  | regs
  | index
  | pc
  | stack
  | delay
  | sound
  | memory
  | display
  | inputs
  deriving DecidableEq, Repr

/-- A part is the same in two states. Registers and memory are compared through the reads of one register and of one
byte. -/
def Part.Same (s t : State) : Part → Prop
  | .regs => ∀ r, t.readV r = s.readV r
  | .index => t.I = s.I
  | .pc => t.pc = s.pc
  | .stack => t.stack = s.stack
  | .delay => t.DT = s.DT
  | .sound => t.ST = s.ST
  | .memory => ∀ a, t.byteAt a = s.byteAt a
  | .display => t.fb = s.fb
  | .inputs => t.keys = s.keys ∧ t.rnd = s.rnd ∧ t.keyAnswer = s.keyAnswer ∧ t.draws = s.draws

/-- Every part but those listed is the same in `t` as in `s`. -/
def KeepsAllBut (changed : List Part) (s t : State) : Prop := ∀ p, p ∉ changed → p.Same s t

/-- Every register but those that satisfy `P` is the same in `t` as in `s`. -/
def KeepsRegsBut (P : Reg → Prop) (s t : State) : Prop := ∀ r, ¬ P r → t.readV r = s.readV r

/-- Only the register `x` and `pc` change: `x` to `v`, `pc` by the default advance (R61). -/
def WritesOnlyReg (x : Reg) (v : Byte) (s t : State) : Prop :=
  KeepsAllBut [.regs, .pc] s t ∧ (∀ r, t.readV r = if r = x then v else s.readV r) ∧ t.pc = s.pc + 2

/-- Only `pc` changes, to `target`. -/
def MovesOnlyPc (target : Word) (s t : State) : Prop := KeepsAllBut [.pc] s t ∧ t.pc = target

/-- Only the flag `VF`, the register `x` and `pc` change, `pc` by the default advance; what the two registers become is
said beside it (R86). -/
def WritesOnlyRegAndFlag (x : Reg) (s t : State) : Prop :=
  KeepsAllBut [.regs, .pc] s t ∧ KeepsRegsBut (fun r => r = x ∨ r = VF) s t ∧ t.pc = s.pc + 2

/-- The instructions that may change a part of the state (10_state.md R11 to R19, R61; the inputs: R24, R25). -/
def Part.mayChange : Part → Instr → Bool
  | .regs, i =>
    match i with
    | .ldImm _ _ | .addImm _ _ | .ldReg _ _ | .orReg _ _ | .andReg _ _ | .xorReg _ _ | .addReg _ _ | .subReg _ _
    | .shr _ _ | .subnReg _ _ | .shl _ _ | .rnd _ _ | .drw _ _ _ | .ldVxDT _ | .ldVxK _ | .loadRegs _ => true
    | _ => false
  | .index, i =>
    match i with
    | .ldI _ | .addI _ | .ldF _ => true
    | _ => false
  | .pc, _ => true
  | .stack, i =>
    match i with
    | .call _ | .ret => true
    | _ => false
  | .delay, i =>
    match i with
    | .ldDTVx _ => true
    | _ => false
  | .sound, i =>
    match i with
    | .ldSTVx _ => true
    | _ => false
  | .memory, i =>
    match i with
    | .ldB _ | .storeRegs _ => true
    | _ => false
  | .display, i =>
    match i with
    | .cls | .drw _ _ _ => true
    | _ => false
  | .inputs, i =>
    match i with
    | .rnd _ _ | .skp _ | .sknp _ | .ldVxK _ => true
    | _ => false

/-- The registers an instruction may write, as R11 lists them: `V[x]` of the explicit writers, `VF` of the five
flag-writing instructions and of `Dxyn`, `V[0..x]` of `Fx65`. -/
def mayWriteReg : Instr → Reg → Bool
  | .ldImm x _, r | .addImm x _, r | .ldReg x _, r | .orReg x _, r | .andReg x _, r | .xorReg x _, r | .rnd x _, r
  | .ldVxDT x, r | .ldVxK x, r => r == x
  | .addReg x _, r | .subReg x _, r | .shr x _, r | .subnReg x _, r | .shl x _, r => r == x || r == VF
  | .drw _ _ _, r => r == VF
  | .loadRegs x, r => decide (r ≤ x)
  | _, _ => false

/-- The instructions that read an input of the step: the random byte or the keys (R24, R25). -/
def readsInputs : Instr → Bool
  | .rnd _ _ | .skp _ | .sknp _ | .ldVxK _ => true
  | _ => false

/-! ### The invariant -/

/-- What every state a run reaches satisfies: memory is in canonical form; the stack holds at most `STACK_MAX` entries
(R16), each of them a `pc + 2` of some executed `2nnn`, so within `2 .. 4096` (R15, R72, decision D7); and `pc` is
within `0 .. 4350` (R15). -/
def MachineInv (s : State) : Prop :=
  Memory.wf s.mem = true ∧ s.depth ≤ Config.stackMax ∧ (∀ a ∈ s.stack, 2 ≤ a.toNat ∧ a.toNat ≤ 4096) ∧ s.pc.toNat ≤ 4350

/-- The invariant of an instance in the host's hands. -/
def Session.Inv (se : Session) : Prop := MachineInv se.machine

/-! ### Runs -/

/-- No step from here ends in a fault; the goal a claim about a program should take (decision D2). -/
def Safe (s : State) : Prop := ∀ r, step s ≠ .fault r

/-- R167 (the definition the spec offers for `END_OF_RUN`, decision D24): `pc ≤ 4094` and the word at `pc` is `1nnn`
with `nnn = pc`. -/
def Terminal (s : State) : Prop := ∃ w nnn, s.fetchWord = some w ∧ decodeWord w = .jp nnn ∧ addr16 nnn = s.pc

/-- The state with other inputs and other timers: what a claim of independence from them varies. -/
def State.withEnvironment (s : State) (keys : Option (BitVec 16)) (rnd : Option Byte) (keyAnswer : Option Bool)
    (draws : Nat) (dt st : Byte) : State :=
  { s with keys := keys, rnd := rnd, keyAnswer := keyAnswer, draws := draws, DT := dt, ST := st }

/-! ### Sprites -/

/-- R113: the pixel at column `tx`, row `ty` belongs to the set `M` of pixels that a set sprite bit covers, the sprite
having its top-left corner at column `px`, row `py`, and `n` rows at `I`, `I + 1`, …. -/
def State.Covers (s : State) (px py n : Nat) (tx : Fin 64) (ty : Fin 32) : Prop :=
  ∃ row col, row < n ∧ col < 8 ∧ spriteBit (s.byteAt (s.base + row)) col = true ∧
    tx.val = (px + col) % 64 ∧ ty.val = (py + row) % 32

end Sys2Proof.Machine
end

