-- ==== Sys2Proof/Certificates/Slice0/Obligations.lean ====
section
/-! DEFINITION. The statements for the provers. Each docstring names the rule of spec/ it formalises, and the decision of
spec/92_eei_decisions.md or the log entry where the statement rests on one. -/

open Sys2Proof Sys2Proof.Machine

/-! ### Encoding and decoding (30_encoding.md) -/

/-- Words written out from the spec's encodings decode to the instructions they stand for (spec/95_test_vectors.md
section 2.1, and the opcode table of R55). -/
def Obligations.SpecWordsDecode : Prop :=
  decodeWord 0xD015 = .drw 0 1 5 ∧ decodeWord 0x8AB4 = .addReg 10 11 ∧ decodeWord 0xF265 = .loadRegs 2 ∧
  decodeWord 0xE29E = .skp 2 ∧ decodeWord 0x3F01 = .seImm 15 0x01 ∧ decodeWord 0xBFFF = .jpV0 0xFFF ∧
  decodeWord 0x00E0 = .cls ∧ decodeWord 0x00EE = .ret ∧ decodeWord 0x0000 = .unrecognized 0x0000 ∧
  decodeWord 0x5121 = .unrecognized 0x5121

/-- Decode and encode agree on every well-formed instruction, every operand at every value, and on its bytes whatever
follows them (R50 to R56). -/
def Obligations.DecodeOfEncode : Prop :=
  ∀ i : Instr, i.wellFormed = true →
    decodeWord (encode i) = i ∧ ∀ rest, decodeBytes (encodeBytes i ++ rest) = .ok (i, rest)

/-- Each word has one meaning: what it decodes to is well formed and encodes to the same word (R54). -/
def Obligations.EncodeOfDecode : Prop :=
  ∀ w : Word, (decodeWord w).wellFormed = true ∧ encode (decodeWord w) = w

/-- A word decodes to the instruction of a row of the opcode table exactly when `w AND mask = match` (R55), and is
unrecognized exactly when no row accepts it (R57). -/
def Obligations.DecodeFollowsOpcodeTable : Prop :=
  ∀ w : Word,
    (∀ row ∈ opcodeTable, (w &&& row.mask = row.pattern ↔ (decodeWord w).rowNumber = row.number)) ∧
    ((∀ row ∈ opcodeTable, w &&& row.mask ≠ row.pattern) ↔ decodeWord w = .unrecognized w)

/-- The unrecognized words by family (R58, itself derived in the spec from R55 and R56, decision D10). -/
def Obligations.UnrecognizedWordsByFamily : Prop :=
  ∀ w : Word, decodeWord w = .unrecognized w ↔
    (fieldF w = 0x0 ∧ w ≠ 0x00E0 ∧ w ≠ 0x00EE) ∨ (fieldF w = 0x5 ∧ fieldN w ≠ 0) ∨
    (fieldF w = 0x8 ∧ fieldN w ∈ [0x8, 0x9, 0xA, 0xB, 0xC, 0xD, 0xF]) ∨ (fieldF w = 0x9 ∧ fieldN w ≠ 0) ∨
    (fieldF w = 0xE ∧ fieldKK w ∉ [0x9E, 0xA1]) ∨
    (fieldF w = 0xF ∧ fieldKK w ∉ [0x07, 0x0A, 0x15, 0x18, 0x1E, 0x29, 0x33, 0x55, 0x65])

/-! ### The step (30_encoding.md section 3) and its faults (60_exceptions.md) -/

/-- When the two bytes at `pc` decode to `i`, the step is `exec i`, with nothing around it; the word is
`mem[pc] * 256 + mem[pc+1]` (R34, R60, R61). `pc` may be odd (R35). -/
def Obligations.StepRunsDecodedInstruction : Prop :=
  ∀ (s : State) (i : Instr), s.pc.toNat ≤ 4094 →
    decodeBytes [s.byteAt s.pc.toNat, s.byteAt (s.pc.toNat + 1)] = .ok (i, []) →
      step s = exec i s ∧
      ∃ w, s.fetchWord = some w ∧ w.toNat = (s.byteAt s.pc.toNat).toNat * 256 + (s.byteAt (s.pc.toNat + 1)).toNat

/-- A fetch with `pc > 4094` is a `MemoryOutOfBounds` whose record carries no opcode (R60, decisions D3, D5;
logs 7, 15). -/
def Obligations.FetchFaultsOutsideMemory : Prop :=
  ∀ s : State, 4094 < s.pc.toNat → step s = .fault (.memoryOutOfBounds s.pc none)

/-- The record of every fault carries the address of the instruction and the word fetched, no word where none was
fetched (R134, decision D3; log 7). -/
def Obligations.FaultRecordNamesInstruction : Prop :=
  ∀ (s : State) (r : Fault), step s = .fault r → r.faultPc = s.pc ∧ r.faultOpcode = s.fetchWord

/-- The complete list of faults and of their conditions (R130, R136; the conditions rest on decisions D4,
D5, D6, logs 15 and 8; the record on D3, log 7). -/
def Obligations.FaultsExactlyWhereListed : Prop :=
  ∀ (s : State) (r : Fault), step s = .fault r ↔
    (4094 < s.pc.toNat ∧ r = .memoryOutOfBounds s.pc none) ∨
    ∃ w, s.fetchWord = some w ∧
      ((decodeWord w = .ret ∧ s.depth = 0 ∧ r = .stackUnderflow s.pc (some w)) ∨
       (∃ nnn, decodeWord w = .call nnn ∧ 16 ≤ s.depth ∧ r = .stackOverflow s.pc (some w)) ∨
       (∃ x y n, decodeWord w = .drw x y n ∧ 0 < n.toNat ∧ 4096 < s.I.toNat + n.toNat ∧
          r = .memoryOutOfBounds s.pc (some w)) ∨
       (∃ x, decodeWord w = .ldB x ∧ 4096 < s.I.toNat + 3 ∧ r = .memoryOutOfBounds s.pc (some w)) ∨
       (∃ x, (decodeWord w = .storeRegs x ∨ decodeWord w = .loadRegs x) ∧ 4096 < s.I.toNat + x.val + 1 ∧
          r = .memoryOutOfBounds s.pc (some w)))

/-- No step is refused: every word of memory has a meaning (R54, R57). -/
def Obligations.StepNeverRefuses : Prop :=
  ∀ (s : State) (r : Refusal), step s ≠ .refused r

/-- A fault depends on nothing the host can still change: with any other inputs and any other timers the same step
faults with the same record (R137, derived in the spec from R135 and R146). -/
def Obligations.FaultRepeats : Prop :=
  ∀ (s : State) (r : Fault) (keys : Option (BitVec 16)) (rnd : Option Byte) (keyAnswer : Option Bool) (draws : Nat)
    (dt st : Byte), step s = .fault r → step (s.withEnvironment keys rnd keyAnswer draws dt st) = .fault r

/-! ### The invariant -/

/-- The reset state satisfies the invariant (R26). -/
def Obligations.ResetSatisfiesInvariant : Prop := MachineInv State.reset

/-- Every step keeps the invariant: memory canonical, at most 16 return addresses, each within `2 .. 4096`, and `pc`
within `0 .. 4350` (R15, R16, R72; derived in the spec). -/
def Obligations.StepKeepsInvariant : Prop :=
  ∀ s t : State, MachineInv s → step s = .next t → MachineInv t

/-- Whatever operations the host performs, in any number and any interleaving of steps and ticks, with any program, keys
and random bytes, the instance satisfies the invariant after every one that is not refused (R5, R141, R147). -/
def Obligations.EveryExecutionKeepsInvariant : Prop :=
  ∀ (ops : List HostOp) (se : Session) (replies : List HostReply),
    Session.construct.run ops = .ok (se, replies) → se.Inv

/-! ### Whole-machine rules (10_state.md) -/

/-- Each part of the state is changed only by the instructions the spec names for it (R11, R13, R16 to R20, R106). -/
def Obligations.OnlyNamedInstructionsChangeAPart : Prop :=
  ∀ (i : Instr) (s t : State) (p : Part), exec i s = .next t → p.mayChange i = false → p.Same s t

/-- A register changes only where R11 lists the instruction as a writer of it. -/
def Obligations.OnlyNamedRegistersAreWritten : Prop :=
  ∀ (i : Instr) (s t : State) (r : Reg), exec i s = .next t → mayWriteReg i r = false → t.readV r = s.readV r

/-- No instruction reads the sound timer: with another `ST` every instruction does the same to all the rest (R18). -/
def Obligations.SoundTimerIsNeverRead : Prop :=
  ∀ (i : Instr) (s : State) (v : Byte),
    (∀ t, exec i s = .next t → ∃ t', exec i (s.writeST v) = .next t' ∧ KeepsAllBut [.sound] t t') ∧
    (∀ r, exec i s = .fault r → exec i (s.writeST v) = .fault r)

/-- The key lines, the random byte and the out-of-range answer are read only by `Ex9E`, `ExA1`, `Fx0A` and `Cxkk`; every
other instruction does the same whatever they are (R24, R25). -/
def Obligations.InputsReadOnlyByNamedInstructions : Prop :=
  ∀ (i : Instr) (s t : State) (keys : BitVec 16) (rnd : Byte) (keyAnswer : Bool), readsInputs i = false →
    exec i s = .next t → exec i (s.withInputs keys rnd keyAnswer) = .next (t.withInputs keys rnd keyAnswer)

/-! ### Control flow (40_flow.md) -/

/-- `00EE` (R70): pop into `pc` with nothing added, or `StackUnderflow` on an empty stack (what the record's opcode is,
`FaultsExactlyWhereListed` says). -/
def Obligations.ReturnPopsOrUnderflows : Prop :=
  decodeWord 0x00EE = .ret ∧
  ∀ s : State,
    (s.stack = [] → ∃ opcode, exec .ret s = .fault (.stackUnderflow s.pc opcode)) ∧
    (∀ a rest, s.stack = a :: rest →
      ∃ t, exec .ret s = .next t ∧ KeepsAllBut [.pc, .stack] s t ∧ t.pc = a ∧ t.stack = rest)

/-- `1nnn` (R71): `pc` becomes the address and nothing else changes; only `nnn = 0xFFF` makes the next fetch fault
(what that record's opcode is, `FetchFaultsOutsideMemory` says). -/
def Obligations.JumpGoesToAddress : Prop :=
  ∀ (s : State) (nnn : BitVec 12), decodeWord (formatNNN 0x1 nnn) = .jp nnn ∧
    ∃ t, exec (.jp nnn) s = .next t ∧ MovesOnlyPc (nnn.setWidth 16) s t ∧
      (nnn = 0xFFF → ∃ opcode, step t = .fault (.memoryOutOfBounds 0xFFF opcode)) ∧ (nnn ≠ 0xFFF → t.fetchWord ≠ none)

/-- `2nnn` (R72, `STACK_MAX` by decision D6): with fewer than 16 entries, push `pc + 2` and jump. -/
def Obligations.CallPushesAndJumps : Prop :=
  ∀ (s : State) (nnn : BitVec 12), decodeWord (formatNNN 0x2 nnn) = .call nnn ∧
    (s.depth < 16 → ∃ t, exec (.call nnn) s = .next t ∧ KeepsAllBut [.pc, .stack] s t ∧
      t.stack = (s.pc + 2) :: s.stack ∧ t.pc = nnn.setWidth 16)

/-- `2nnn` on a full stack is a `StackOverflow` with the call's word in the record (R72, R132, decision D6, log 8; the
record: decision D3, log 7). -/
def Obligations.CallOnFullStackOverflows : Prop :=
  ∀ (s : State) (nnn : BitVec 12), 16 ≤ s.depth →
    exec (.call nnn) s = .fault (.stackOverflow s.pc (some (formatNNN 0x2 nnn)))

/-- `Bnnn` (R73): the sum of `nnn` and `V0`, not masked (decision D31; log 21). That the next fetch faults from 4095 on is
R60 with decision D5 (log 15); that its record has no opcode is decision D3 (log 7). -/
def Obligations.ComputedJumpAddsV0 : Prop :=
  ∀ (s : State) (nnn : BitVec 12), decodeWord (formatNNN 0xB nnn) = .jpV0 nnn ∧
    ∃ t, exec (.jpV0 nnn) s = .next t ∧ KeepsAllBut [.pc] s t ∧ t.pc.toNat = nnn.toNat + (s.readV 0).toNat ∧
      (4094 < nnn.toNat + (s.readV 0).toNat → step t = .fault (.memoryOutOfBounds t.pc none))

/-- `3xkk` and `4xkk` (R74, R75): skip if equal, skip if not equal; exactly one of the two skips. -/
def Obligations.SkipsOnImmediate : Prop :=
  ∀ (s : State) (x : Reg) (kk : Byte),
    (decodeWord (formatXKK 0x3 x kk) = .seImm x kk ∧
      ∃ t, exec (.seImm x kk) s = .next t ∧ MovesOnlyPc (if s.readV x = kk then s.pc + 4 else s.pc + 2) s t) ∧
    (decodeWord (formatXKK 0x4 x kk) = .sneImm x kk ∧
      ∃ t, exec (.sneImm x kk) s = .next t ∧ MovesOnlyPc (if s.readV x = kk then s.pc + 2 else s.pc + 4) s t)

/-- `5xy0` and `9xy0` (R76, R77); with another low nibble the word is unrecognized (R56, decision D10; log 13). -/
def Obligations.SkipsOnRegisters : Prop :=
  ∀ (s : State) (x y : Reg),
    (decodeWord (formatXYN 0x5 x y 0) = .seReg x y ∧
      ∃ t, exec (.seReg x y) s = .next t ∧ MovesOnlyPc (if s.readV x = s.readV y then s.pc + 4 else s.pc + 2) s t) ∧
    (decodeWord (formatXYN 0x9 x y 0) = .sneReg x y ∧
      ∃ t, exec (.sneReg x y) s = .next t ∧ MovesOnlyPc (if s.readV x = s.readV y then s.pc + 2 else s.pc + 4) s t) ∧
    ∀ n : BitVec 4, n ≠ 0 → decodeWord (formatXYN 0x5 x y n) = .unrecognized (formatXYN 0x5 x y n) ∧
      decodeWord (formatXYN 0x9 x y n) = .unrecognized (formatXYN 0x9 x y n)

/-- A return after a call goes to the address after the call and restores the stack, whatever the subroutine did in
between that left the stack as the call left it (R70, R72; S5 of spec/95_test_vectors.md). -/
def Obligations.ReturnUndoesCall : Prop :=
  ∀ (s t u : State) (nnn : BitVec 12), exec (.call nnn) s = .next t → u.stack = t.stack →
    ∃ v, exec .ret u = .next v ∧ v.pc = s.pc + 2 ∧ v.stack = s.stack ∧ KeepsAllBut [.pc, .stack] u v

/-- A word that matches no row does nothing but advance (R57). -/
def Obligations.UnrecognizedWordsAreNoOps : Prop :=
  ∀ (s : State) (w : Word), (∀ row ∈ opcodeTable, w &&& row.mask ≠ row.pattern) →
    decodeWord w = .unrecognized w ∧
    ∃ t, exec (.unrecognized w) s = .next t ∧ MovesOnlyPc (s.pc + 2) s t

/-! ### Arithmetic and logic (41_alu.md) -/

/-- `6xkk` and `7xkk` (R80, R81): the immediate, or the sum modulo 256; `VF` is touched only as the destination. -/
def Obligations.ImmediateLoadAndAdd : Prop :=
  ∀ (s : State) (x : Reg) (kk : Byte),
    (decodeWord (formatXKK 0x6 x kk) = .ldImm x kk ∧ ∃ t, exec (.ldImm x kk) s = .next t ∧ WritesOnlyReg x kk s t) ∧
    (decodeWord (formatXKK 0x7 x kk) = .addImm x kk ∧
      ∃ t, exec (.addImm x kk) s = .next t ∧
        WritesOnlyReg x (BitVec.ofNat 8 (((s.readV x).toNat + kk.toNat) % 256)) s t)

/-- `8xy0` to `8xy3` (R82 to R85): move, or, and, exclusive or; no flag. -/
def Obligations.MoveAndLogic : Prop :=
  ∀ (s : State) (x y : Reg),
    (decodeWord (formatXYN 0x8 x y 0) = .ldReg x y ∧
      ∃ t, exec (.ldReg x y) s = .next t ∧ WritesOnlyReg x (s.readV y) s t) ∧
    (decodeWord (formatXYN 0x8 x y 1) = .orReg x y ∧
      ∃ t, exec (.orReg x y) s = .next t ∧ WritesOnlyReg x (s.readV x ||| s.readV y) s t) ∧
    (decodeWord (formatXYN 0x8 x y 2) = .andReg x y ∧
      ∃ t, exec (.andReg x y) s = .next t ∧ WritesOnlyReg x (s.readV x &&& s.readV y) s t) ∧
    (decodeWord (formatXYN 0x8 x y 3) = .xorReg x y ∧
      ∃ t, exec (.xorReg x y) s = .next t ∧ WritesOnlyReg x (s.readV x ^^^ s.readV y) s t)

/-- `8xy4` (R87): the result is the sum of the old operands modulo 256, whichever registers they are; `VF` is the carry
unless it is the destination. -/
def Obligations.AddWithCarry : Prop :=
  ∀ (s : State) (x y : Reg), decodeWord (formatXYN 0x8 x y 4) = .addReg x y ∧
    ∃ t, exec (.addReg x y) s = .next t ∧ WritesOnlyRegAndFlag x s t ∧
      t.readV x = BitVec.ofNat 8 (((s.readV x).toNat + (s.readV y).toNat) % 256) ∧
      (x ≠ VF → t.readV VF = if (s.readV x).toNat + (s.readV y).toNat > 255 then 1 else 0)

/-- `8xy5` (R88), every alias case of `VF`: the flag is the strict comparison (decision D9; log 12) and the subtraction
reads the registers after the flag write (R86, decision D8; log 11). -/
def Obligations.SubtractResult : Prop :=
  ∀ (s : State) (x y : Reg), decodeWord (formatXYN 0x8 x y 5) = .subReg x y ∧
    ∃ t, exec (.subReg x y) s = .next t ∧ WritesOnlyRegAndFlag x s t ∧
      (x ≠ VF → y ≠ VF → t.readV x = s.readV x - s.readV y ∧
        t.readV VF = if (s.readV x).toNat > (s.readV y).toNat then 1 else 0) ∧
      (x ≠ VF → y = VF → t.readV VF = (if (s.readV x).toNat > (s.readV VF).toNat then 1 else 0) ∧
        t.readV x = s.readV x - t.readV VF) ∧
      (x = VF → y ≠ VF → t.readV VF = (if (s.readV VF).toNat > (s.readV y).toNat then 1 else 0) - s.readV y) ∧
      (x = VF → y = VF → t.readV VF = 0)

/-- `8xy7` (R90), every alias case of `VF` (decisions D8, D9; logs 11, 12). -/
def Obligations.ReverseSubtractResult : Prop :=
  ∀ (s : State) (x y : Reg), decodeWord (formatXYN 0x8 x y 7) = .subnReg x y ∧
    ∃ t, exec (.subnReg x y) s = .next t ∧ WritesOnlyRegAndFlag x s t ∧
      (x ≠ VF → y ≠ VF → t.readV x = s.readV y - s.readV x ∧
        t.readV VF = if (s.readV y).toNat > (s.readV x).toNat then 1 else 0) ∧
      (x ≠ VF → y = VF → t.readV VF = (if (s.readV VF).toNat > (s.readV x).toNat then 1 else 0) ∧
        t.readV x = t.readV VF - s.readV x) ∧
      (x = VF → y ≠ VF → t.readV VF = s.readV y - (if (s.readV y).toNat > (s.readV VF).toNat then 1 else 0)) ∧
      (x = VF → y = VF → t.readV VF = 0)

/-- `8xy6` (R89): halve, the bit shifted out to `VF`; `y` plays no part; `8Fy6` leaves 0 (decision D8; log 11). -/
def Obligations.ShiftRightResult : Prop :=
  ∀ (s : State) (x y : Reg), decodeWord (formatXYN 0x8 x y 6) = .shr x y ∧
    ∃ t, exec (.shr x y) s = .next t ∧ WritesOnlyRegAndFlag x s t ∧
      (x ≠ VF → (t.readV x).toNat = (s.readV x).toNat / 2 ∧ (t.readV VF).toNat = (s.readV x).toNat % 2) ∧
      (x = VF → t.readV VF = 0)

/-- `8xyE` (R91): double modulo 256, the bit shifted out to `VF`; `y` plays no part; `8FyE` leaves 2 or 0 (decision D8;
log 11). -/
def Obligations.ShiftLeftResult : Prop :=
  ∀ (s : State) (x y : Reg), decodeWord (formatXYN 0x8 x y 0xE) = .shl x y ∧
    ∃ t, exec (.shl x y) s = .next t ∧ WritesOnlyRegAndFlag x s t ∧
      (x ≠ VF → (t.readV x).toNat = (s.readV x).toNat * 2 % 256 ∧ (t.readV VF).toNat = (s.readV x).toNat / 128) ∧
      (x = VF → t.readV VF = if (s.readV VF).toNat ≥ 0x80 then 2 else 0)

/-- `Cxkk` (R92): the random byte of this step under the mask; the byte is used up and no other register or part of the
machine changes. The byte is unconstrained (decision D22; log 2): the statement holds for every one. -/
def Obligations.RandomUnderMask : Prop :=
  ∀ (s : State) (x : Reg) (kk : Byte), decodeWord (formatXKK 0xC x kk) = .rnd x kk ∧
    ∃ t, exec (.rnd x kk) s = .next t ∧ KeepsAllBut [.regs, .pc, .inputs] s t ∧ t.pc = s.pc + 2 ∧
      (∀ r, t.readV r = if r = x then s.randomByte &&& kk else s.readV r) ∧ t.rnd = none ∧
      (∀ b, s.rnd = some b → t.readV x = b &&& kk)

/-! ### The index register and memory (42_index_memory.md) -/

/-- `Annn` (R100). -/
def Obligations.LoadIndex : Prop :=
  ∀ (s : State) (nnn : BitVec 12), decodeWord (formatNNN 0xA nnn) = .ldI nnn ∧
    ∃ t, exec (.ldI nnn) s = .next t ∧ KeepsAllBut [.index, .pc] s t ∧ t.I.toNat = nnn.toNat ∧ t.pc = s.pc + 2

/-- `Fx1E` (R101: modulo 65536, no flag; decision D14; log 16) and `Fx29` (R102: the whole byte; decision D15;
log 16). -/
def Obligations.AddToIndexAndGlyphAddress : Prop :=
  ∀ (s : State) (x : Reg),
    (decodeWord (formatXKK 0xF x 0x1E) = .addI x ∧
      ∃ t, exec (.addI x) s = .next t ∧ KeepsAllBut [.index, .pc] s t ∧
        t.I.toNat = (s.I.toNat + (s.readV x).toNat) % 65536 ∧ t.pc = s.pc + 2) ∧
    (decodeWord (formatXKK 0xF x 0x29) = .ldF x ∧
      ∃ t, exec (.ldF x) s = .next t ∧ KeepsAllBut [.index, .pc] s t ∧
        t.I.toNat = 0x050 + (s.readV x).toNat * 5 ∧ t.pc = s.pc + 2)

/-- `Fx33` (R103): hundreds, tens and units at `I`, `I + 1`, `I + 2` (decision D16; log 17), every other byte as
before. -/
def Obligations.DecimalDigitsToMemory : Prop :=
  ∀ (s : State) (x : Reg), decodeWord (formatXKK 0xF x 0x33) = .ldB x ∧
    (s.I.toNat + 3 ≤ 4096 → ∃ t, exec (.ldB x) s = .next t ∧ KeepsAllBut [.memory, .pc] s t ∧ t.pc = s.pc + 2 ∧
      (t.byteAt s.base).toNat = (s.readV x).toNat / 100 ∧
      (t.byteAt (s.base + 1)).toNat = (s.readV x).toNat / 10 % 10 ∧
      (t.byteAt (s.base + 2)).toNat = (s.readV x).toNat % 10 ∧
      ∀ a, a < s.base ∨ s.base + 3 ≤ a → t.byteAt a = s.byteAt a)

/-- `Fx55` (R104): `V0 .. Vx` to `I .. I + x`, every other byte as before, `I` unchanged (decision D17; log 17). -/
def Obligations.StoreRegisters : Prop :=
  ∀ (s : State) (x : Reg), decodeWord (formatXKK 0xF x 0x55) = .storeRegs x ∧
    (s.I.toNat + x.val + 1 ≤ 4096 → ∃ t, exec (.storeRegs x) s = .next t ∧ KeepsAllBut [.memory, .pc] s t ∧
      t.pc = s.pc + 2 ∧ (∀ k : Reg, k ≤ x → t.byteAt (s.base + k.val) = s.readV k) ∧
      ∀ a, a < s.base ∨ s.base + x.val < a → t.byteAt a = s.byteAt a)

/-- `Fx65` (R105): `I .. I + x` to `V0 .. Vx`, the registers above and all of memory as before, `I` unchanged (decision
D17; log 17). -/
def Obligations.LoadRegisters : Prop :=
  ∀ (s : State) (x : Reg), decodeWord (formatXKK 0xF x 0x65) = .loadRegs x ∧
    (s.I.toNat + x.val + 1 ≤ 4096 → ∃ t, exec (.loadRegs x) s = .next t ∧ KeepsAllBut [.regs, .pc] s t ∧
      t.pc = s.pc + 2 ∧ ∀ r : Reg, t.readV r = if r ≤ x then s.byteAt (s.base + r.val) else s.readV r)

/-- The bounds rule (R37, decision D4; log 15): a transfer or a draw whose range leaves memory faults as a whole, on the
unbounded sum, with its word in the record (decision D3; log 7). -/
def Obligations.OutOfRangeTransfersFault : Prop :=
  ∀ (s : State) (x y : Reg) (n : BitVec 4),
    (4096 < s.I.toNat + 3 → exec (.ldB x) s = .fault (.memoryOutOfBounds s.pc (some (formatXKK 0xF x 0x33)))) ∧
    (4096 < s.I.toNat + x.val + 1 →
      exec (.storeRegs x) s = .fault (.memoryOutOfBounds s.pc (some (formatXKK 0xF x 0x55))) ∧
      exec (.loadRegs x) s = .fault (.memoryOutOfBounds s.pc (some (formatXKK 0xF x 0x65)))) ∧
    (0 < n.toNat → 4096 < s.I.toNat + n.toNat →
      exec (.drw x y n) s = .fault (.memoryOutOfBounds s.pc (some (formatXYN 0xD x y n))))

/-- What `Fx55` stores, `Fx65` at the same `I` loads again, whatever the registers became in between (R104, R105, R43). -/
def Obligations.LoadReturnsWhatWasStored : Prop :=
  ∀ (s t u : State) (x : Reg), exec (.storeRegs x) s = .next t → u.I = t.I → u.mem = t.mem →
    ∃ v, exec (.loadRegs x) u = .next v ∧ ∀ r : Reg, v.readV r = if r ≤ x then s.readV r else u.readV r

/-- A store to the bytes of the next instruction is seen by its fetch (R45, derived in the spec from R43 and R60). -/
def Obligations.StoreIsSeenByNextFetch : Prop :=
  ∀ (s t : State) (x k : Reg), exec (.storeRegs x) s = .next t → t.pc.toNat = s.base + k.val → k < x →
    t.fetchWord = some (wordOfBytes (s.readV k) (s.readV (k + 1)))

/-! ### The display (43_display.md) -/

/-- `00E0` (R110): every pixel 0, nothing else but `pc`. -/
def Obligations.ClearBlanksDisplay : Prop :=
  decodeWord 0x00E0 = .cls ∧
  ∀ s : State, ∃ t, exec .cls s = .next t ∧ KeepsAllBut [.display, .pc] s t ∧ t.pc = s.pc + 2 ∧
    ∀ tx ty, t.fb.pixel tx ty = false

/-- `Dxyn` in the closed form of R113 (derived in the spec from R111; bit order, coordinates and `n = 0` by decisions
D11, D12, D13; log 14): exactly the covered pixels are inverted, and `VF` says whether one of them was set. -/
def Obligations.DrawInvertsCoveredPixels : Prop :=
  ∀ (s : State) (x y : Reg) (n : BitVec 4), decodeWord (formatXYN 0xD x y n) = .drw x y n ∧
    (n.toNat = 0 ∨ s.I.toNat + n.toNat ≤ 4096 →
      ∃ t, exec (.drw x y n) s = .next t ∧ KeepsAllBut [.regs, .display, .pc] s t ∧ t.pc = s.pc + 2 ∧
        KeepsRegsBut (fun r => r = VF) s t ∧
        (∀ tx ty, s.Covers (s.readV x).toNat (s.readV y).toNat n.toNat tx ty →
          t.fb.pixel tx ty = !s.fb.pixel tx ty) ∧
        (∀ tx ty, ¬ s.Covers (s.readV x).toNat (s.readV y).toNat n.toNat tx ty →
          t.fb.pixel tx ty = s.fb.pixel tx ty) ∧
        ((∃ tx ty, s.Covers (s.readV x).toNat (s.readV y).toNat n.toNat tx ty ∧ s.fb.pixel tx ty = true) →
          t.readV VF = 1) ∧
        ((∀ tx ty, s.Covers (s.readV x).toNat (s.readV y).toNat n.toNat tx ty → s.fb.pixel tx ty = false) →
          t.readV VF = 0))

/-- Drawing the same sprite twice at the same place with unchanged memory restores the display (R113, derived in the
spec); the coordinates are in registers the draw does not write. -/
def Obligations.DrawingTwiceRestoresDisplay : Prop :=
  ∀ (s t : State) (x y : Reg) (n : BitVec 4), x ≠ VF → y ≠ VF → exec (.drw x y n) s = .next t →
    ∃ u, exec (.drw x y n) t = .next u ∧ u.fb = s.fb

/-! ### Timers and keys (44_timers_keys.md, 60_exceptions.md section 4) -/

/-- `Fx07`, `Fx15`, `Fx18` (R120, R121, R122). -/
def Obligations.TimerAccess : Prop :=
  ∀ (s : State) (x : Reg),
    (decodeWord (formatXKK 0xF x 0x07) = .ldVxDT x ∧ ∃ t, exec (.ldVxDT x) s = .next t ∧ WritesOnlyReg x s.DT s t) ∧
    (decodeWord (formatXKK 0xF x 0x15) = .ldDTVx x ∧
      ∃ t, exec (.ldDTVx x) s = .next t ∧ KeepsAllBut [.delay, .pc] s t ∧ t.DT = s.readV x ∧ t.pc = s.pc + 2) ∧
    (decodeWord (formatXKK 0xF x 0x18) = .ldSTVx x ∧
      ∃ t, exec (.ldSTVx x) s = .next t ∧ KeepsAllBut [.sound, .pc] s t ∧ t.ST = s.readV x ∧ t.pc = s.pc + 2)

/-- `tickTimers()` (R140): each timer one down, floored at 0; nothing else changes. -/
def Obligations.TickCountsDownToZero : Prop :=
  ∀ s : State, KeepsAllBut [.delay, .sound] s s.tickTimers ∧
    s.tickTimers.DT.toNat = s.DT.toNat - 1 ∧ s.tickTimers.ST.toNat = s.ST.toNat - 1

/-- `Ex9E` and `ExA1` with an index of the key table, 0 to 15 (R123, R124, R126): the one skips if the key is down, the
other if it is up; no register is written. -/
def Obligations.KeySkipsInsideKeyTable : Prop :=
  ∀ (s : State) (x : Reg), decodeWord (formatXKK 0xE x 0x9E) = .skp x ∧ decodeWord (formatXKK 0xE x 0xA1) = .sknp x ∧
    ((s.readV x).toNat ≤ 15 →
      (∃ t, exec (.skp x) s = .next t ∧ KeepsAllBut [.pc, .inputs] s t ∧
        t.pc = if s.keyLines.getLsbD (s.readV x).toNat then s.pc + 4 else s.pc + 2) ∧
      (∃ t, exec (.sknp x) s = .next t ∧ KeepsAllBut [.pc, .inputs] s t ∧
        t.pc = if s.keyLines.getLsbD (s.readV x).toNat then s.pc + 2 else s.pc + 4))

/-- A key query with an index above 15 (R126, decision D20; log 3): no fault, the skip goes by an answer that this query
alone uses up, and either answer can be had, everything else in the state being the same. -/
def Obligations.KeySkipsOutsideKeyTable : Prop :=
  ∀ (s : State) (x : Reg), 15 < (s.readV x).toNat →
    (∃ t, exec (.skp x) s = .next t ∧ KeepsAllBut [.pc, .inputs] s t ∧
      t.pc = (if s.outsideAnswer then s.pc + 4 else s.pc + 2) ∧ t.keyAnswer = none ∧ t.draws = s.draws + 1) ∧
    (∃ t, exec (.sknp x) s = .next t ∧ KeepsAllBut [.pc, .inputs] s t ∧
      t.pc = (if s.outsideAnswer then s.pc + 2 else s.pc + 4) ∧ t.keyAnswer = none ∧ t.draws = s.draws + 1) ∧
    ∀ answer : Bool, State.outsideAnswer { s with keyAnswer := some answer } = answer

/-- `Fx0A` (R125): the least key that is down goes to `Vx` and `pc` advances; with none down the step succeeds and
nothing of the machine changes, and nothing at all where the host holds the lines. The key lines as an input are the
spec's decision D21; that State holds them, the exemption of the inputs and the clause `keys ≠ none` are the model's
choice (log 1). -/
def Obligations.WaitForKeyPolls : Prop :=
  ∀ (s : State) (x : Reg), decodeWord (formatXKK 0xF x 0x0A) = .ldVxK x ∧
    (∀ k : Reg, s.keyLines.getLsbD k.val = true → (∀ j : Reg, j < k → s.keyLines.getLsbD j.val = false) →
      ∃ t, exec (.ldVxK x) s = .next t ∧ KeepsAllBut [.regs, .pc, .inputs] s t ∧ t.pc = s.pc + 2 ∧
        ∀ r, t.readV r = if r = x then BitVec.ofNat 8 k.val else s.readV r) ∧
    ((∀ j : Reg, s.keyLines.getLsbD j.val = false) →
      ∃ t, exec (.ldVxK x) s = .next t ∧ KeepsAllBut [.inputs] s t ∧ (s.keys ≠ none → t = s))

/-! ### Reset and the host's operations (70_reset_and_hazards.md, 20_memory.md, 60_exceptions.md section 6) -/

/-- The reset state, register by register and byte by byte (R26; the display by decision D19, log 19). -/
def Obligations.ResetValues : Prop :=
  (∀ r, State.reset.readV r = 0) ∧ State.reset.I = 0 ∧ State.reset.pc = 0x200 ∧ State.reset.stack = [] ∧
  State.reset.DT = 0 ∧ State.reset.ST = 0 ∧ (∀ tx ty, State.reset.fb.pixel tx ty = false) ∧
  (∀ a, a < 0x050 ∨ 0x0A0 ≤ a → State.reset.byteAt a = 0) ∧
  (∀ k : Fin 80, State.reset.byteAt (0x050 + k.val) = fontTable.getD k.val 0)

/-- The font in the reset memory, glyph by glyph as R21 tabulates it. -/
def Obligations.FontGlyphsAtReset : Prop :=
  ∀ d : Fin 16, (List.range 5).map (fun k => State.reset.byteAt (0x050 + 5 * d.val + k)) =
    ([[0xF0, 0x90, 0x90, 0x90, 0xF0], [0x20, 0x60, 0x20, 0x20, 0x70], [0xF0, 0x10, 0xF0, 0x80, 0xF0],
      [0xF0, 0x10, 0xF0, 0x10, 0xF0], [0x90, 0x90, 0xF0, 0x10, 0x10], [0xF0, 0x80, 0xF0, 0x10, 0xF0],
      [0xF0, 0x80, 0xF0, 0x90, 0xF0], [0xF0, 0x10, 0x20, 0x40, 0x40]]
     ++ [[0xF0, 0x90, 0xF0, 0x90, 0xF0], [0xF0, 0x90, 0xF0, 0x10, 0xF0], [0xF0, 0x90, 0xF0, 0x90, 0x90],
      [0xE0, 0x90, 0xE0, 0x90, 0xE0], [0xF0, 0x80, 0x80, 0x80, 0xF0], [0xE0, 0x90, 0x90, 0x90, 0xE0],
      [0xF0, 0x80, 0xF0, 0x80, 0xF0], [0xF0, 0x80, 0xF0, 0x80, 0x80]] : List (List Byte)).getD d.val []

/-- Construction leaves zero everywhere in memory, and `loadFont` after it gives the reset state (R160; R26). -/
def Obligations.ConstructThenLoadFontIsReset : Prop :=
  (∀ a, State.construct.byteAt a = 0) ∧ State.construct.loadFont = State.reset

/-- `loadFont()` from any state: the 80 glyph bytes to `0x050` and up, nothing else (R40, R21). -/
def Obligations.LoadFontWritesGlyphs : Prop :=
  ∀ s : State, KeepsAllBut [.memory] s s.loadFont ∧
    (∀ k : Fin 80, s.loadFont.byteAt (0x050 + k.val) = fontTable.getD k.val 0) ∧
    ∀ a, a < 0x050 ∨ 0x0A0 ≤ a → s.loadFont.byteAt a = s.byteAt a

/-- `loadProgram` (R41, R42): it fails iff `0x200 + len > 4096`, and then the instance's machine is as before the call;
else the bytes lie verbatim from `0x200` and nothing else changes. -/
def Obligations.LoadProgramCopiesOrRejects : Prop :=
  ∀ (s : State) (bytes : List Byte),
    (s.loadProgram bytes = .error .programTooLarge ↔ 0x200 + bytes.length > 4096) ∧
    (0x200 + bytes.length > 4096 → ∀ ph, (Session.load ⟨ph, s⟩ bytes).1.machine = s ∧
      (Session.load ⟨ph, s⟩ bytes).2 = .programTooLarge) ∧
    (0x200 + bytes.length ≤ 4096 → ∃ t, s.loadProgram bytes = .ok t ∧ KeepsAllBut [.memory] s t ∧
      (∀ k, k < bytes.length → t.byteAt (0x200 + k) = bytes.getD k 0) ∧
      ∀ a, a < 0x200 ∨ 0x200 + bytes.length ≤ a → t.byteAt a = s.byteAt a)

/-- The one order of host operations that has a meaning (R161, decision D25; logs 6, 26): in each phase exactly the
operations due are not refused. -/
def Obligations.OutOfOrderOperationsAreRefused : Prop :=
  ∀ (se : Session) (op : HostOp), se.apply op = .error .hostOrder ↔
    ¬ ((se.phase = .constructed ∧ op = .loadFont) ∨
       (se.phase = .fontLoaded ∧ ∃ bytes, op = .loadProgram bytes) ∨
       (se.phase = .running ∧ ((∃ k b a, op = .step k b a) ∨ op = .tickTimers ∨ op = .framebuffer)))

/-- A step that returns a fault leaves the whole instance as it was, and the machine's state with it (R135, decision
D2; log 20). -/
def Obligations.FaultingStepChangesNothing : Prop :=
  ∀ (se se' : Session) (op : HostOp) (r : Fault), se.apply op = .ok (se', .runtimeFault r) →
    se' = se ∧ ∃ k b a, op = .step k b a ∧ step (se.machine.withInputs k b a) = .fault r

/-- A jump to itself is a fixed point of the step, for all inputs, and stays terminal under ticks (R167, decision
D24). -/
def Obligations.TerminalStatesAreFixedPoints : Prop :=
  ∀ s : State, Terminal s → step s = .next s ∧ Terminal s.tickTimers
end

