-- ==== Sys2Proof/Laws/Encoding.lean ====
section
/-! SUPPORT. The fields of a formatted word (R51, R52), and a word put together again from its fields. -/

namespace Sys2Proof

/-! ### Fields of formatted words -/

@[simp] theorem fieldF_formatNNN (f : BitVec 4) (nnn : BitVec 12) : fieldF (formatNNN f nnn) = f := by
  unfold fieldF formatNNN
  ext i hi
  simp only [BitVec.getElem_extractLsb', BitVec.getLsbD_cast, BitVec.getLsbD_append]
  simp [hi]

@[simp] theorem fieldNNN_formatNNN (f : BitVec 4) (nnn : BitVec 12) : fieldNNN (formatNNN f nnn) = nnn := by
  unfold fieldNNN formatNNN
  ext i hi
  simp only [BitVec.getElem_extractLsb', BitVec.getLsbD_cast, BitVec.getLsbD_append]
  simp [hi]

@[simp] theorem fieldF_formatXKK (f : BitVec 4) (x : Reg) (kk : Byte) : fieldF (formatXKK f x kk) = f := by
  unfold fieldF formatXKK
  ext i hi
  simp only [BitVec.getElem_extractLsb', BitVec.getLsbD_cast, BitVec.getLsbD_append]
  simp [hi, show ¬ 12 + i < 8 by omega, show ¬ 12 + i - 8 < 4 by omega,
    show 12 + i - 8 - 4 = i by omega]

@[simp] theorem fieldX_formatXKK (f : BitVec 4) (x : Reg) (kk : Byte) : fieldX (formatXKK f x kk) = x := by
  have h : (formatXKK f x kk).extractLsb' 8 4 = nibble x := by
    unfold formatXKK
    ext i hi
    simp only [BitVec.getElem_extractLsb', BitVec.getLsbD_cast, BitVec.getLsbD_append]
    simp [hi]
  unfold fieldX
  rw [h]
  rfl

@[simp] theorem fieldKK_formatXKK (f : BitVec 4) (x : Reg) (kk : Byte) : fieldKK (formatXKK f x kk) = kk := by
  unfold fieldKK formatXKK
  ext i hi
  simp only [BitVec.getElem_extractLsb', BitVec.getLsbD_cast, BitVec.getLsbD_append]
  simp [hi]

@[simp] theorem fieldF_formatXYN (f : BitVec 4) (x y : Reg) (n : BitVec 4) : fieldF (formatXYN f x y n) = f := by
  unfold fieldF formatXYN
  ext i hi
  simp only [BitVec.getElem_extractLsb', BitVec.getLsbD_cast, BitVec.getLsbD_append]
  simp [hi, show ¬ 12 + i < 4 by omega, show ¬ 12 + i - 4 < 4 by omega,
    show ¬ 12 + i - 4 - 4 < 4 by omega, show 12 + i - 4 - 4 - 4 = i by omega]

@[simp] theorem fieldX_formatXYN (f : BitVec 4) (x y : Reg) (n : BitVec 4) : fieldX (formatXYN f x y n) = x := by
  have h : (formatXYN f x y n).extractLsb' 8 4 = nibble x := by
    unfold formatXYN
    ext i hi
    simp only [BitVec.getElem_extractLsb', BitVec.getLsbD_cast, BitVec.getLsbD_append]
    simp [hi, show ¬ 8 + i < 4 by omega, show ¬ 8 + i - 4 < 4 by omega,
      show 8 + i - 4 - 4 = i by omega]
  unfold fieldX
  rw [h]
  rfl

@[simp] theorem fieldY_formatXYN (f : BitVec 4) (x y : Reg) (n : BitVec 4) : fieldY (formatXYN f x y n) = y := by
  have h : (formatXYN f x y n).extractLsb' 4 4 = nibble y := by
    unfold formatXYN
    ext i hi
    simp only [BitVec.getElem_extractLsb', BitVec.getLsbD_cast, BitVec.getLsbD_append]
    simp [hi]
  unfold fieldY
  rw [h]
  rfl

@[simp] theorem fieldN_formatXYN (f : BitVec 4) (x y : Reg) (n : BitVec 4) : fieldN (formatXYN f x y n) = n := by
  unfold fieldN formatXYN
  ext i hi
  simp only [BitVec.getElem_extractLsb', BitVec.getLsbD_cast, BitVec.getLsbD_append]
  simp [hi]

/-! ### A word from its fields -/

theorem formatNNN_fields (w : Word) : formatNNN (fieldF w) (fieldNNN w) = w := by
  unfold formatNNN fieldF fieldNNN
  ext i hi
  simp only [BitVec.getElem_cast, BitVec.getElem_append]
  split
  · simp [BitVec.getLsbD_eq_getElem, hi]
  · simp [BitVec.getLsbD_eq_getElem, hi, show 12 + (i - 12) = i by omega]

theorem nibble_fieldX (w : Word) : nibble (fieldX w) = w.extractLsb' 8 4 := rfl

theorem nibble_fieldY (w : Word) : nibble (fieldY w) = w.extractLsb' 4 4 := rfl

theorem formatXKK_fields (w : Word) : formatXKK (fieldF w) (fieldX w) (fieldKK w) = w := by
  unfold formatXKK fieldF fieldKK
  rw [nibble_fieldX]
  ext i hi
  simp only [BitVec.getElem_cast, BitVec.getElem_append]
  split
  · simp [BitVec.getLsbD_eq_getElem, hi]
  · split
    · simp [BitVec.getLsbD_eq_getElem, hi, show 8 + (i - 8) = i by omega]
    · simp [BitVec.getLsbD_eq_getElem, hi, show 12 + (i - 8 - 4) = i by omega]

theorem formatXYN_fields (w : Word) : formatXYN (fieldF w) (fieldX w) (fieldY w) (fieldN w) = w := by
  unfold formatXYN fieldF fieldN
  rw [nibble_fieldX, nibble_fieldY]
  ext i hi
  simp only [BitVec.getElem_cast, BitVec.getElem_append]
  split
  · simp [BitVec.getLsbD_eq_getElem, hi]
  · split
    · simp [BitVec.getLsbD_eq_getElem, hi, show 4 + (i - 4) = i by omega]
    · split
      · simp [BitVec.getLsbD_eq_getElem, hi, show 8 + (i - 4 - 4) = i by omega]
      · simp [BitVec.getLsbD_eq_getElem, hi, show 12 + (i - 4 - 4 - 4) = i by omega]

/-- The low byte is `y :: n` (R51). -/
theorem fieldKK_eq_append (w : Word) : fieldKK w = BitVec.cast (show 4 + 4 = 8 from rfl) (nibble (fieldY w) ++ fieldN w) := by
  rw [nibble_fieldY]
  unfold fieldKK fieldN
  ext i hi
  simp only [BitVec.getElem_cast, BitVec.getElem_append]
  split
  · simp
  · simp [show 4 + (i - 4) = i by omega]

/-! ### The masks of the opcode table (R55) -/

theorem fieldF_and (w m : Word) : fieldF (w &&& m) = fieldF w &&& fieldF m := by
  unfold fieldF
  ext i hi
  simp

theorem fieldN_and (w m : Word) : fieldN (w &&& m) = fieldN w &&& fieldN m := by
  unfold fieldN
  ext i hi
  simp

theorem fieldKK_and (w m : Word) : fieldKK (w &&& m) = fieldKK w &&& fieldKK m := by
  unfold fieldKK
  ext i hi
  simp

/-- A row with mask `0xF000` asks for the family alone (R55). -/
theorem and_F000 (w : Word) (c : BitVec 4) : w &&& 0xF000 = formatNNN c 0 ↔ fieldF w = c := by
  constructor
  · intro h
    have := congrArg fieldF h
    rw [fieldF_and, fieldF_formatNNN] at this
    rw [← this, show fieldF 0xF000 = BitVec.allOnes 4 by decide, BitVec.and_allOnes]
  · rintro rfl
    unfold fieldF formatNNN
    ext i hi
    simp only [BitVec.getElem_cast, BitVec.getElem_append]
    interval_cases i <;> simp [BitVec.getLsbD_eq_getElem]

/-- A row with mask `0xF00F` asks for the family and the low nibble (R55, R56). -/
theorem and_F00F (w : Word) (c d : BitVec 4) :
    w &&& 0xF00F = formatXYN c 0 0 d ↔ fieldF w = c ∧ fieldN w = d := by
  constructor
  · intro h
    have h1 := congrArg fieldF h
    have h2 := congrArg fieldN h
    rw [fieldF_and, fieldF_formatXYN] at h1
    rw [fieldN_and, fieldN_formatXYN] at h2
    rw [← h1, ← h2, show fieldF 0xF00F = BitVec.allOnes 4 by decide,
      show fieldN 0xF00F = BitVec.allOnes 4 by decide, BitVec.and_allOnes, BitVec.and_allOnes]
    exact ⟨rfl, rfl⟩
  · rintro ⟨rfl, rfl⟩
    unfold fieldF fieldN formatXYN
    ext i hi
    simp only [BitVec.getElem_cast, BitVec.getElem_append]
    interval_cases i <;> simp [BitVec.getLsbD_eq_getElem, nibble]

/-- A row with mask `0xF0FF` asks for the family and the low byte (R55). -/
theorem and_F0FF (w : Word) (c : BitVec 4) (k : Byte) :
    w &&& 0xF0FF = formatXKK c 0 k ↔ fieldF w = c ∧ fieldKK w = k := by
  constructor
  · intro h
    have h1 := congrArg fieldF h
    have h2 := congrArg fieldKK h
    rw [fieldF_and, fieldF_formatXKK] at h1
    rw [fieldKK_and, fieldKK_formatXKK] at h2
    rw [← h1, ← h2, show fieldF 0xF0FF = BitVec.allOnes 4 by decide,
      show fieldKK 0xF0FF = BitVec.allOnes 8 by decide, BitVec.and_allOnes, BitVec.and_allOnes]
    exact ⟨rfl, rfl⟩
  · rintro ⟨rfl, rfl⟩
    unfold fieldF fieldKK formatXKK
    ext i hi
    simp only [BitVec.getElem_cast, BitVec.getElem_append]
    interval_cases i <;> simp [BitVec.getLsbD_eq_getElem, nibble]

/-! ### Bytes -/

/-- The two bytes of a word combine to the word again (R34). -/
theorem wordOfBytes_bytes (w : Word) : wordOfBytes (w.extractLsb' 8 8) (w.extractLsb' 0 8) = w := by
  unfold wordOfBytes
  ext i hi
  simp only [BitVec.getElem_cast, BitVec.getElem_append]
  split
  · simp [BitVec.getLsbD_eq_getElem, hi]
  · simp [BitVec.getLsbD_eq_getElem, hi, show 8 + (i - 8) = i by omega]

/-- R34: `opcode = mem[pc] * 256 + mem[pc+1]`. -/
theorem toNat_wordOfBytes (hi lo : Byte) : (wordOfBytes hi lo).toNat = hi.toNat * 256 + lo.toNat := by
  unfold wordOfBytes
  rw [BitVec.toNat_cast, BitVec.toNat_append, ← Nat.shiftLeft_add_eq_or_of_lt lo.isLt, Nat.shiftLeft_eq]

/-- Decoding the bytes of a word decodes the word and leaves the rest. -/
theorem decodeBytes_bytesOfWord (w : Word) (rest : List Byte) :
    decodeBytes (bytesOfWord w ++ rest) = .ok (decodeWord w, rest) := by
  simp [bytesOfWord, decodeBytes, wordOfBytes_bytes]

end Sys2Proof
end

