-- ==== Sys2Proof/Laws/Memory.lean ====
section
/-! SUPPORT. The laws of memory: a read after a write, and the canonical form kept by every operation (R36, R43). They
hold for every list, in canonical form or not, except where the canonical form is what is claimed. -/

namespace Sys2Proof.Machine

theorem Memory.read_erase (m : Memory) (a b : Nat) :
    Memory.read (Memory.erase m a) b = if b = a then memInit b else Memory.read m b := by
  induction m with
  | nil => simp [Memory.erase, Memory.read]
  | cons c m ih => grind [Memory.erase, Memory.read]

theorem Memory.read_insert_same (m : Memory) (a : Nat) (v : Byte) (h : ∀ c ∈ m, c.1 ≠ a) :
    Memory.read (Memory.insert m a v) a = v := by
  induction m with
  | nil => simp [Memory.insert, Memory.read]
  | cons c m ih => grind [Memory.insert, Memory.read]

theorem Memory.read_insert_of_ne (m : Memory) {a b : Nat} (v : Byte) (h : b ≠ a) :
    Memory.read (Memory.insert m a v) b = Memory.read m b := by
  induction m with
  | nil => simp [Memory.insert, Memory.read, Ne.symm h]
  | cons c m ih => grind [Memory.insert, Memory.read]

theorem Memory.mem_erase {m : Memory} {a : Nat} {c : Host.Cell} :
    c ∈ Memory.erase m a ↔ c ∈ m ∧ c.1 ≠ a := by
  induction m with
  | nil => simp [Memory.erase]
  | cons d m ih => grind [Memory.erase]

theorem Memory.mem_insert {m : Memory} {a : Nat} {v : Byte} {c : Host.Cell} :
    c ∈ Memory.insert m a v ↔ c = (a, v) ∨ c ∈ m := by
  induction m with
  | nil => simp [Memory.insert]
  | cons d m ih => grind [Memory.insert]

/-- A write changes exactly the one byte addressed (R36). -/
theorem Memory.read_write (m : Memory) (a b : Nat) (v : Byte) :
    Memory.read (Memory.write m a v) b = if b = a then v else Memory.read m b := by
  unfold Memory.write
  split
  · next h => rw [Memory.read_erase]; split <;> simp_all
  · by_cases hb : b = a
    · subst hb
      simp [Memory.read_insert_same _ _ _ (fun c hc => (Memory.mem_erase.1 hc).2)]
    · simp [Memory.read_insert_of_ne _ _ hb, Memory.read_erase, hb]

/-- The canonical form, said of the list as a whole. -/
theorem Memory.wf_cons {c : Host.Cell} {m : Memory} :
    Memory.wf (c :: m) = true ↔
      c.1 < Config.memSize ∧ c.2 ≠ memInit c.1 ∧ (∀ d ∈ m, c.1 < d.1) ∧ Memory.wf m = true := by
  simp [Memory.wf, and_assoc]

theorem Memory.wf_erase {m : Memory} (a : Nat) (h : Memory.wf m = true) : Memory.wf (Memory.erase m a) = true := by
  induction m with
  | nil => simp [Memory.erase, Memory.wf]
  | cons c m ih =>
    rw [Memory.wf_cons] at h
    unfold Memory.erase
    split
    · exact ih h.2.2.2
    · exact Memory.wf_cons.2 ⟨h.1, h.2.1, fun d hd => h.2.2.1 d (Memory.mem_erase.1 hd).1, ih h.2.2.2⟩

theorem Memory.wf_insert {m : Memory} {a : Nat} {v : Byte} (h : Memory.wf m = true) (ha : a < Config.memSize)
    (hv : v ≠ memInit a) (hm : ∀ c ∈ m, c.1 ≠ a) : Memory.wf (Memory.insert m a v) = true := by
  induction m with
  | nil => simp [Memory.insert, Memory.wf, ha, hv]
  | cons c m ih =>
    have hc := Memory.wf_cons.1 h
    unfold Memory.insert
    split
    · next hlt =>
      refine Memory.wf_cons.2 ⟨ha, hv, fun d hd => ?_, h⟩
      rcases List.mem_cons.1 hd with rfl | hd
      · exact hlt
      · exact lt_trans hlt (hc.2.2.1 d hd)
    · next hge =>
      refine Memory.wf_cons.2 ⟨hc.1, hc.2.1, fun d hd => ?_, ih hc.2.2.2 (fun d hd => hm d (by simp [hd]))⟩
      rcases Memory.mem_insert.1 hd with rfl | hd
      · have := hm c (by simp)
        simp only; omega
      · exact hc.2.2.1 d hd

/-- A write inside memory keeps the canonical form. -/
theorem Memory.wf_write {m : Memory} {a : Nat} (v : Byte) (h : Memory.wf m = true) (ha : a < Config.memSize) :
    Memory.wf (Memory.write m a v) = true := by
  unfold Memory.write
  split
  · exact Memory.wf_erase a h
  · next hv => exact Memory.wf_insert (Memory.wf_erase a h) ha hv (fun c hc => (Memory.mem_erase.1 hc).2)

/-- A run of writes: the bytes lie at `a`, `a + 1`, …, everything else is as before. -/
theorem Memory.read_writeBytes (m : Memory) (a b : Nat) (vs : List Byte) :
    Memory.read (Memory.writeBytes m a vs) b =
      if a ≤ b ∧ b < a + vs.length then vs.getD (b - a) 0 else Memory.read m b := by
  induction vs generalizing m a with
  | nil => simp [Memory.writeBytes]
  | cons v vs ih =>
    rw [Memory.writeBytes, ih, Memory.read_write]
    by_cases h1 : b = a
    · subst h1; simp
    · by_cases h2 : a + 1 ≤ b ∧ b < a + 1 + vs.length
      · have h3 : a ≤ b ∧ b < a + (v :: vs).length := by simp; omega
        rw [if_pos h2, if_pos h3, show b - a = (b - (a + 1)) + 1 by omega]
        simp
      · have h3 : ¬ (a ≤ b ∧ b < a + (v :: vs).length) := by simp; omega
        rw [if_neg h2, if_neg h3, if_neg h1]

/-- A run of writes inside memory keeps the canonical form. -/
theorem Memory.wf_writeBytes {m : Memory} {a : Nat} (vs : List Byte) (h : Memory.wf m = true)
    (ha : a + vs.length ≤ Config.memSize) : Memory.wf (Memory.writeBytes m a vs) = true := by
  induction vs generalizing m a with
  | nil => exact h
  | cons v vs ih =>
    simp only [List.length_cons] at ha
    exact ih (Memory.wf_write v h (by omega)) (by omega)

/-- Outside the stored bytes, and in them, after `storeBytes`. -/
theorem State.byteAt_storeBytes (s : State) (a b : Nat) (vs : List Byte) :
    (s.storeBytes a vs).byteAt b = if a ≤ b ∧ b < a + vs.length then vs.getD (b - a) 0 else s.byteAt b :=
  Memory.read_writeBytes s.mem a b vs

/-- `CheckRange` (R7, R37). -/
theorem inRange_iff (addr len : Nat) : inRange addr len = true ↔ len = 0 ∨ addr + len ≤ 4096 := by
  unfold inRange
  rw [Bool.or_eq_true, beq_iff_eq, decide_eq_true_iff]
  exact Iff.rfl

theorem inRange_eq_false (addr len : Nat) : inRange addr len = false ↔ 0 < len ∧ 4096 < addr + len := by
  rw [← Bool.not_eq_true, inRange_iff]
  omega

/-- Storing a run that passed the range check keeps the canonical form. -/
theorem State.wf_storeBytes (s : State) (a : Nat) (vs : List Byte) (h : Memory.wf s.mem = true)
    (hr : inRange a vs.length = true) : Memory.wf (s.storeBytes a vs).mem = true := by
  rcases (inRange_iff a vs.length).1 hr with h0 | h1
  · rw [List.length_eq_zero_iff] at h0
    subst h0
    exact h
  · exact Memory.wf_writeBytes vs h h1

end Sys2Proof.Machine
end

