-- ==== Sys2Proof/Laws/State.lean ====
section
/-! SUPPORT. One lemma per field, and per named read, for each update of the state, so that no proof unfolds a record
update; and the reads of registers after a register write. -/

namespace Sys2Proof.Machine

/-! `writeV` -/

@[simp] theorem State.writeV_V (s : State) (x : Reg) (v : Byte) : (s.writeV x v).V = s.V.set x.val v := rfl
@[simp] theorem State.writeV_I (s : State) (x : Reg) (v : Byte) : (s.writeV x v).I = s.I := rfl
@[simp] theorem State.writeV_pc (s : State) (x : Reg) (v : Byte) : (s.writeV x v).pc = s.pc := rfl
@[simp] theorem State.writeV_stack (s : State) (x : Reg) (v : Byte) : (s.writeV x v).stack = s.stack := rfl
@[simp] theorem State.writeV_DT (s : State) (x : Reg) (v : Byte) : (s.writeV x v).DT = s.DT := rfl
@[simp] theorem State.writeV_ST (s : State) (x : Reg) (v : Byte) : (s.writeV x v).ST = s.ST := rfl
@[simp] theorem State.writeV_mem (s : State) (x : Reg) (v : Byte) : (s.writeV x v).mem = s.mem := rfl
@[simp] theorem State.writeV_fb (s : State) (x : Reg) (v : Byte) : (s.writeV x v).fb = s.fb := rfl
@[simp] theorem State.writeV_keys (s : State) (x : Reg) (v : Byte) : (s.writeV x v).keys = s.keys := rfl
@[simp] theorem State.writeV_rnd (s : State) (x : Reg) (v : Byte) : (s.writeV x v).rnd = s.rnd := rfl
@[simp] theorem State.writeV_keyAnswer (s : State) (x : Reg) (v : Byte) : (s.writeV x v).keyAnswer = s.keyAnswer := rfl
@[simp] theorem State.writeV_draws (s : State) (x : Reg) (v : Byte) : (s.writeV x v).draws = s.draws := rfl
@[simp] theorem State.writeV_byteAt (s : State) (x : Reg) (v : Byte) (a : Nat) : (s.writeV x v).byteAt a = s.byteAt a := rfl
@[simp] theorem State.writeV_base (s : State) (x : Reg) (v : Byte) : (s.writeV x v).base = s.base := rfl
@[simp] theorem State.writeV_depth (s : State) (x : Reg) (v : Byte) : (s.writeV x v).depth = s.depth := rfl
@[simp] theorem State.writeV_keyLines (s : State) (x : Reg) (v : Byte) : (s.writeV x v).keyLines = s.keyLines := rfl
@[simp] theorem State.writeV_randomByte (s : State) (x : Reg) (v : Byte) : (s.writeV x v).randomByte = s.randomByte := rfl
@[simp] theorem State.writeV_outsideAnswer (s : State) (x : Reg) (v : Byte) : (s.writeV x v).outsideAnswer = s.outsideAnswer := rfl

/-! `writeI` -/

@[simp] theorem State.writeI_V (s : State) (v : Word) : (s.writeI v).V = s.V := rfl
@[simp] theorem State.writeI_I (s : State) (v : Word) : (s.writeI v).I = v := rfl
@[simp] theorem State.writeI_pc (s : State) (v : Word) : (s.writeI v).pc = s.pc := rfl
@[simp] theorem State.writeI_stack (s : State) (v : Word) : (s.writeI v).stack = s.stack := rfl
@[simp] theorem State.writeI_DT (s : State) (v : Word) : (s.writeI v).DT = s.DT := rfl
@[simp] theorem State.writeI_ST (s : State) (v : Word) : (s.writeI v).ST = s.ST := rfl
@[simp] theorem State.writeI_mem (s : State) (v : Word) : (s.writeI v).mem = s.mem := rfl
@[simp] theorem State.writeI_fb (s : State) (v : Word) : (s.writeI v).fb = s.fb := rfl
@[simp] theorem State.writeI_keys (s : State) (v : Word) : (s.writeI v).keys = s.keys := rfl
@[simp] theorem State.writeI_rnd (s : State) (v : Word) : (s.writeI v).rnd = s.rnd := rfl
@[simp] theorem State.writeI_keyAnswer (s : State) (v : Word) : (s.writeI v).keyAnswer = s.keyAnswer := rfl
@[simp] theorem State.writeI_draws (s : State) (v : Word) : (s.writeI v).draws = s.draws := rfl
@[simp] theorem State.writeI_readV (s : State) (v : Word) (r : Reg) : (s.writeI v).readV r = s.readV r := rfl
@[simp] theorem State.writeI_byteAt (s : State) (v : Word) (a : Nat) : (s.writeI v).byteAt a = s.byteAt a := rfl
@[simp] theorem State.writeI_depth (s : State) (v : Word) : (s.writeI v).depth = s.depth := rfl
@[simp] theorem State.writeI_keyLines (s : State) (v : Word) : (s.writeI v).keyLines = s.keyLines := rfl
@[simp] theorem State.writeI_randomByte (s : State) (v : Word) : (s.writeI v).randomByte = s.randomByte := rfl
@[simp] theorem State.writeI_outsideAnswer (s : State) (v : Word) : (s.writeI v).outsideAnswer = s.outsideAnswer := rfl

/-! `writeDT` -/

@[simp] theorem State.writeDT_V (s : State) (v : Byte) : (s.writeDT v).V = s.V := rfl
@[simp] theorem State.writeDT_I (s : State) (v : Byte) : (s.writeDT v).I = s.I := rfl
@[simp] theorem State.writeDT_pc (s : State) (v : Byte) : (s.writeDT v).pc = s.pc := rfl
@[simp] theorem State.writeDT_stack (s : State) (v : Byte) : (s.writeDT v).stack = s.stack := rfl
@[simp] theorem State.writeDT_DT (s : State) (v : Byte) : (s.writeDT v).DT = v := rfl
@[simp] theorem State.writeDT_ST (s : State) (v : Byte) : (s.writeDT v).ST = s.ST := rfl
@[simp] theorem State.writeDT_mem (s : State) (v : Byte) : (s.writeDT v).mem = s.mem := rfl
@[simp] theorem State.writeDT_fb (s : State) (v : Byte) : (s.writeDT v).fb = s.fb := rfl
@[simp] theorem State.writeDT_keys (s : State) (v : Byte) : (s.writeDT v).keys = s.keys := rfl
@[simp] theorem State.writeDT_rnd (s : State) (v : Byte) : (s.writeDT v).rnd = s.rnd := rfl
@[simp] theorem State.writeDT_keyAnswer (s : State) (v : Byte) : (s.writeDT v).keyAnswer = s.keyAnswer := rfl
@[simp] theorem State.writeDT_draws (s : State) (v : Byte) : (s.writeDT v).draws = s.draws := rfl
@[simp] theorem State.writeDT_readV (s : State) (v : Byte) (r : Reg) : (s.writeDT v).readV r = s.readV r := rfl
@[simp] theorem State.writeDT_byteAt (s : State) (v : Byte) (a : Nat) : (s.writeDT v).byteAt a = s.byteAt a := rfl
@[simp] theorem State.writeDT_base (s : State) (v : Byte) : (s.writeDT v).base = s.base := rfl
@[simp] theorem State.writeDT_depth (s : State) (v : Byte) : (s.writeDT v).depth = s.depth := rfl
@[simp] theorem State.writeDT_keyLines (s : State) (v : Byte) : (s.writeDT v).keyLines = s.keyLines := rfl
@[simp] theorem State.writeDT_randomByte (s : State) (v : Byte) : (s.writeDT v).randomByte = s.randomByte := rfl
@[simp] theorem State.writeDT_outsideAnswer (s : State) (v : Byte) : (s.writeDT v).outsideAnswer = s.outsideAnswer := rfl

/-! `writeST` -/

@[simp] theorem State.writeST_V (s : State) (v : Byte) : (s.writeST v).V = s.V := rfl
@[simp] theorem State.writeST_I (s : State) (v : Byte) : (s.writeST v).I = s.I := rfl
@[simp] theorem State.writeST_pc (s : State) (v : Byte) : (s.writeST v).pc = s.pc := rfl
@[simp] theorem State.writeST_stack (s : State) (v : Byte) : (s.writeST v).stack = s.stack := rfl
@[simp] theorem State.writeST_DT (s : State) (v : Byte) : (s.writeST v).DT = s.DT := rfl
@[simp] theorem State.writeST_ST (s : State) (v : Byte) : (s.writeST v).ST = v := rfl
@[simp] theorem State.writeST_mem (s : State) (v : Byte) : (s.writeST v).mem = s.mem := rfl
@[simp] theorem State.writeST_fb (s : State) (v : Byte) : (s.writeST v).fb = s.fb := rfl
@[simp] theorem State.writeST_keys (s : State) (v : Byte) : (s.writeST v).keys = s.keys := rfl
@[simp] theorem State.writeST_rnd (s : State) (v : Byte) : (s.writeST v).rnd = s.rnd := rfl
@[simp] theorem State.writeST_keyAnswer (s : State) (v : Byte) : (s.writeST v).keyAnswer = s.keyAnswer := rfl
@[simp] theorem State.writeST_draws (s : State) (v : Byte) : (s.writeST v).draws = s.draws := rfl
@[simp] theorem State.writeST_readV (s : State) (v : Byte) (r : Reg) : (s.writeST v).readV r = s.readV r := rfl
@[simp] theorem State.writeST_byteAt (s : State) (v : Byte) (a : Nat) : (s.writeST v).byteAt a = s.byteAt a := rfl
@[simp] theorem State.writeST_base (s : State) (v : Byte) : (s.writeST v).base = s.base := rfl
@[simp] theorem State.writeST_depth (s : State) (v : Byte) : (s.writeST v).depth = s.depth := rfl
@[simp] theorem State.writeST_keyLines (s : State) (v : Byte) : (s.writeST v).keyLines = s.keyLines := rfl
@[simp] theorem State.writeST_randomByte (s : State) (v : Byte) : (s.writeST v).randomByte = s.randomByte := rfl
@[simp] theorem State.writeST_outsideAnswer (s : State) (v : Byte) : (s.writeST v).outsideAnswer = s.outsideAnswer := rfl

/-! `jumpTo` -/

@[simp] theorem State.jumpTo_V (s : State) (v : Word) : (s.jumpTo v).V = s.V := rfl
@[simp] theorem State.jumpTo_I (s : State) (v : Word) : (s.jumpTo v).I = s.I := rfl
@[simp] theorem State.jumpTo_pc (s : State) (v : Word) : (s.jumpTo v).pc = v := rfl
@[simp] theorem State.jumpTo_stack (s : State) (v : Word) : (s.jumpTo v).stack = s.stack := rfl
@[simp] theorem State.jumpTo_DT (s : State) (v : Word) : (s.jumpTo v).DT = s.DT := rfl
@[simp] theorem State.jumpTo_ST (s : State) (v : Word) : (s.jumpTo v).ST = s.ST := rfl
@[simp] theorem State.jumpTo_mem (s : State) (v : Word) : (s.jumpTo v).mem = s.mem := rfl
@[simp] theorem State.jumpTo_fb (s : State) (v : Word) : (s.jumpTo v).fb = s.fb := rfl
@[simp] theorem State.jumpTo_keys (s : State) (v : Word) : (s.jumpTo v).keys = s.keys := rfl
@[simp] theorem State.jumpTo_rnd (s : State) (v : Word) : (s.jumpTo v).rnd = s.rnd := rfl
@[simp] theorem State.jumpTo_keyAnswer (s : State) (v : Word) : (s.jumpTo v).keyAnswer = s.keyAnswer := rfl
@[simp] theorem State.jumpTo_draws (s : State) (v : Word) : (s.jumpTo v).draws = s.draws := rfl
@[simp] theorem State.jumpTo_readV (s : State) (v : Word) (r : Reg) : (s.jumpTo v).readV r = s.readV r := rfl
@[simp] theorem State.jumpTo_byteAt (s : State) (v : Word) (a : Nat) : (s.jumpTo v).byteAt a = s.byteAt a := rfl
@[simp] theorem State.jumpTo_base (s : State) (v : Word) : (s.jumpTo v).base = s.base := rfl
@[simp] theorem State.jumpTo_depth (s : State) (v : Word) : (s.jumpTo v).depth = s.depth := rfl
@[simp] theorem State.jumpTo_keyLines (s : State) (v : Word) : (s.jumpTo v).keyLines = s.keyLines := rfl
@[simp] theorem State.jumpTo_randomByte (s : State) (v : Word) : (s.jumpTo v).randomByte = s.randomByte := rfl
@[simp] theorem State.jumpTo_outsideAnswer (s : State) (v : Word) : (s.jumpTo v).outsideAnswer = s.outsideAnswer := rfl

/-! `advance` -/

@[simp] theorem State.advance_V (s : State) : s.advance.V = s.V := rfl
@[simp] theorem State.advance_I (s : State) : s.advance.I = s.I := rfl
@[simp] theorem State.advance_pc (s : State) : s.advance.pc = s.pc + 2 := rfl
@[simp] theorem State.advance_stack (s : State) : s.advance.stack = s.stack := rfl
@[simp] theorem State.advance_DT (s : State) : s.advance.DT = s.DT := rfl
@[simp] theorem State.advance_ST (s : State) : s.advance.ST = s.ST := rfl
@[simp] theorem State.advance_mem (s : State) : s.advance.mem = s.mem := rfl
@[simp] theorem State.advance_fb (s : State) : s.advance.fb = s.fb := rfl
@[simp] theorem State.advance_keys (s : State) : s.advance.keys = s.keys := rfl
@[simp] theorem State.advance_rnd (s : State) : s.advance.rnd = s.rnd := rfl
@[simp] theorem State.advance_keyAnswer (s : State) : s.advance.keyAnswer = s.keyAnswer := rfl
@[simp] theorem State.advance_draws (s : State) : s.advance.draws = s.draws := rfl
@[simp] theorem State.advance_readV (s : State) (r : Reg) : s.advance.readV r = s.readV r := rfl
@[simp] theorem State.advance_byteAt (s : State) (a : Nat) : s.advance.byteAt a = s.byteAt a := rfl
@[simp] theorem State.advance_base (s : State) : s.advance.base = s.base := rfl
@[simp] theorem State.advance_depth (s : State) : s.advance.depth = s.depth := rfl
@[simp] theorem State.advance_keyLines (s : State) : s.advance.keyLines = s.keyLines := rfl
@[simp] theorem State.advance_randomByte (s : State) : s.advance.randomByte = s.randomByte := rfl
@[simp] theorem State.advance_outsideAnswer (s : State) : s.advance.outsideAnswer = s.outsideAnswer := rfl

/-! `skipIf` -/

@[simp] theorem State.skipIf_V (s : State) (c : Bool) : (s.skipIf c).V = s.V := rfl
@[simp] theorem State.skipIf_I (s : State) (c : Bool) : (s.skipIf c).I = s.I := rfl
@[simp] theorem State.skipIf_pc (s : State) (c : Bool) : (s.skipIf c).pc = if c then s.pc + 4 else s.pc + 2 := rfl
@[simp] theorem State.skipIf_stack (s : State) (c : Bool) : (s.skipIf c).stack = s.stack := rfl
@[simp] theorem State.skipIf_DT (s : State) (c : Bool) : (s.skipIf c).DT = s.DT := rfl
@[simp] theorem State.skipIf_ST (s : State) (c : Bool) : (s.skipIf c).ST = s.ST := rfl
@[simp] theorem State.skipIf_mem (s : State) (c : Bool) : (s.skipIf c).mem = s.mem := rfl
@[simp] theorem State.skipIf_fb (s : State) (c : Bool) : (s.skipIf c).fb = s.fb := rfl
@[simp] theorem State.skipIf_keys (s : State) (c : Bool) : (s.skipIf c).keys = s.keys := rfl
@[simp] theorem State.skipIf_rnd (s : State) (c : Bool) : (s.skipIf c).rnd = s.rnd := rfl
@[simp] theorem State.skipIf_keyAnswer (s : State) (c : Bool) : (s.skipIf c).keyAnswer = s.keyAnswer := rfl
@[simp] theorem State.skipIf_draws (s : State) (c : Bool) : (s.skipIf c).draws = s.draws := rfl
@[simp] theorem State.skipIf_readV (s : State) (c : Bool) (r : Reg) : (s.skipIf c).readV r = s.readV r := rfl
@[simp] theorem State.skipIf_byteAt (s : State) (c : Bool) (a : Nat) : (s.skipIf c).byteAt a = s.byteAt a := rfl
@[simp] theorem State.skipIf_base (s : State) (c : Bool) : (s.skipIf c).base = s.base := rfl
@[simp] theorem State.skipIf_depth (s : State) (c : Bool) : (s.skipIf c).depth = s.depth := rfl
@[simp] theorem State.skipIf_keyLines (s : State) (c : Bool) : (s.skipIf c).keyLines = s.keyLines := rfl
@[simp] theorem State.skipIf_randomByte (s : State) (c : Bool) : (s.skipIf c).randomByte = s.randomByte := rfl
@[simp] theorem State.skipIf_outsideAnswer (s : State) (c : Bool) : (s.skipIf c).outsideAnswer = s.outsideAnswer := rfl

/-! `push` -/

@[simp] theorem State.push_V (s : State) (v : Word) : (s.push v).V = s.V := rfl
@[simp] theorem State.push_I (s : State) (v : Word) : (s.push v).I = s.I := rfl
@[simp] theorem State.push_pc (s : State) (v : Word) : (s.push v).pc = s.pc := rfl
@[simp] theorem State.push_stack (s : State) (v : Word) : (s.push v).stack = v :: s.stack := rfl
@[simp] theorem State.push_DT (s : State) (v : Word) : (s.push v).DT = s.DT := rfl
@[simp] theorem State.push_ST (s : State) (v : Word) : (s.push v).ST = s.ST := rfl
@[simp] theorem State.push_mem (s : State) (v : Word) : (s.push v).mem = s.mem := rfl
@[simp] theorem State.push_fb (s : State) (v : Word) : (s.push v).fb = s.fb := rfl
@[simp] theorem State.push_keys (s : State) (v : Word) : (s.push v).keys = s.keys := rfl
@[simp] theorem State.push_rnd (s : State) (v : Word) : (s.push v).rnd = s.rnd := rfl
@[simp] theorem State.push_keyAnswer (s : State) (v : Word) : (s.push v).keyAnswer = s.keyAnswer := rfl
@[simp] theorem State.push_draws (s : State) (v : Word) : (s.push v).draws = s.draws := rfl
@[simp] theorem State.push_readV (s : State) (v : Word) (r : Reg) : (s.push v).readV r = s.readV r := rfl
@[simp] theorem State.push_byteAt (s : State) (v : Word) (a : Nat) : (s.push v).byteAt a = s.byteAt a := rfl
@[simp] theorem State.push_base (s : State) (v : Word) : (s.push v).base = s.base := rfl
@[simp] theorem State.push_keyLines (s : State) (v : Word) : (s.push v).keyLines = s.keyLines := rfl
@[simp] theorem State.push_randomByte (s : State) (v : Word) : (s.push v).randomByte = s.randomByte := rfl
@[simp] theorem State.push_outsideAnswer (s : State) (v : Word) : (s.push v).outsideAnswer = s.outsideAnswer := rfl

/-! `writeFb` -/

@[simp] theorem State.writeFb_V (s : State) (fb : Frame) : (s.writeFb fb).V = s.V := rfl
@[simp] theorem State.writeFb_I (s : State) (fb : Frame) : (s.writeFb fb).I = s.I := rfl
@[simp] theorem State.writeFb_pc (s : State) (fb : Frame) : (s.writeFb fb).pc = s.pc := rfl
@[simp] theorem State.writeFb_stack (s : State) (fb : Frame) : (s.writeFb fb).stack = s.stack := rfl
@[simp] theorem State.writeFb_DT (s : State) (fb : Frame) : (s.writeFb fb).DT = s.DT := rfl
@[simp] theorem State.writeFb_ST (s : State) (fb : Frame) : (s.writeFb fb).ST = s.ST := rfl
@[simp] theorem State.writeFb_mem (s : State) (fb : Frame) : (s.writeFb fb).mem = s.mem := rfl
@[simp] theorem State.writeFb_fb (s : State) (fb : Frame) : (s.writeFb fb).fb = fb := rfl
@[simp] theorem State.writeFb_keys (s : State) (fb : Frame) : (s.writeFb fb).keys = s.keys := rfl
@[simp] theorem State.writeFb_rnd (s : State) (fb : Frame) : (s.writeFb fb).rnd = s.rnd := rfl
@[simp] theorem State.writeFb_keyAnswer (s : State) (fb : Frame) : (s.writeFb fb).keyAnswer = s.keyAnswer := rfl
@[simp] theorem State.writeFb_draws (s : State) (fb : Frame) : (s.writeFb fb).draws = s.draws := rfl
@[simp] theorem State.writeFb_readV (s : State) (fb : Frame) (r : Reg) : (s.writeFb fb).readV r = s.readV r := rfl
@[simp] theorem State.writeFb_byteAt (s : State) (fb : Frame) (a : Nat) : (s.writeFb fb).byteAt a = s.byteAt a := rfl
@[simp] theorem State.writeFb_base (s : State) (fb : Frame) : (s.writeFb fb).base = s.base := rfl
@[simp] theorem State.writeFb_depth (s : State) (fb : Frame) : (s.writeFb fb).depth = s.depth := rfl
@[simp] theorem State.writeFb_keyLines (s : State) (fb : Frame) : (s.writeFb fb).keyLines = s.keyLines := rfl
@[simp] theorem State.writeFb_randomByte (s : State) (fb : Frame) : (s.writeFb fb).randomByte = s.randomByte := rfl
@[simp] theorem State.writeFb_outsideAnswer (s : State) (fb : Frame) : (s.writeFb fb).outsideAnswer = s.outsideAnswer := rfl

/-! `writeFlag` -/

@[simp] theorem State.writeFlag_V (s : State) (c : Bool) : (s.writeFlag c).V = s.V.set VF.val (boolByte c) := rfl
@[simp] theorem State.writeFlag_I (s : State) (c : Bool) : (s.writeFlag c).I = s.I := rfl
@[simp] theorem State.writeFlag_pc (s : State) (c : Bool) : (s.writeFlag c).pc = s.pc := rfl
@[simp] theorem State.writeFlag_stack (s : State) (c : Bool) : (s.writeFlag c).stack = s.stack := rfl
@[simp] theorem State.writeFlag_DT (s : State) (c : Bool) : (s.writeFlag c).DT = s.DT := rfl
@[simp] theorem State.writeFlag_ST (s : State) (c : Bool) : (s.writeFlag c).ST = s.ST := rfl
@[simp] theorem State.writeFlag_mem (s : State) (c : Bool) : (s.writeFlag c).mem = s.mem := rfl
@[simp] theorem State.writeFlag_fb (s : State) (c : Bool) : (s.writeFlag c).fb = s.fb := rfl
@[simp] theorem State.writeFlag_keys (s : State) (c : Bool) : (s.writeFlag c).keys = s.keys := rfl
@[simp] theorem State.writeFlag_rnd (s : State) (c : Bool) : (s.writeFlag c).rnd = s.rnd := rfl
@[simp] theorem State.writeFlag_keyAnswer (s : State) (c : Bool) : (s.writeFlag c).keyAnswer = s.keyAnswer := rfl
@[simp] theorem State.writeFlag_draws (s : State) (c : Bool) : (s.writeFlag c).draws = s.draws := rfl
@[simp] theorem State.writeFlag_byteAt (s : State) (c : Bool) (a : Nat) : (s.writeFlag c).byteAt a = s.byteAt a := rfl
@[simp] theorem State.writeFlag_base (s : State) (c : Bool) : (s.writeFlag c).base = s.base := rfl
@[simp] theorem State.writeFlag_depth (s : State) (c : Bool) : (s.writeFlag c).depth = s.depth := rfl
@[simp] theorem State.writeFlag_keyLines (s : State) (c : Bool) : (s.writeFlag c).keyLines = s.keyLines := rfl
@[simp] theorem State.writeFlag_randomByte (s : State) (c : Bool) : (s.writeFlag c).randomByte = s.randomByte := rfl
@[simp] theorem State.writeFlag_outsideAnswer (s : State) (c : Bool) : (s.writeFlag c).outsideAnswer = s.outsideAnswer := rfl

/-! `storeBytes` -/

@[simp] theorem State.storeBytes_V (s : State) (b : Nat) (vs : List Byte) : (s.storeBytes b vs).V = s.V := rfl
@[simp] theorem State.storeBytes_I (s : State) (b : Nat) (vs : List Byte) : (s.storeBytes b vs).I = s.I := rfl
@[simp] theorem State.storeBytes_pc (s : State) (b : Nat) (vs : List Byte) : (s.storeBytes b vs).pc = s.pc := rfl
@[simp] theorem State.storeBytes_stack (s : State) (b : Nat) (vs : List Byte) : (s.storeBytes b vs).stack = s.stack := rfl
@[simp] theorem State.storeBytes_DT (s : State) (b : Nat) (vs : List Byte) : (s.storeBytes b vs).DT = s.DT := rfl
@[simp] theorem State.storeBytes_ST (s : State) (b : Nat) (vs : List Byte) : (s.storeBytes b vs).ST = s.ST := rfl
@[simp] theorem State.storeBytes_mem (s : State) (b : Nat) (vs : List Byte) : (s.storeBytes b vs).mem = Memory.writeBytes s.mem b vs := rfl
@[simp] theorem State.storeBytes_fb (s : State) (b : Nat) (vs : List Byte) : (s.storeBytes b vs).fb = s.fb := rfl
@[simp] theorem State.storeBytes_keys (s : State) (b : Nat) (vs : List Byte) : (s.storeBytes b vs).keys = s.keys := rfl
@[simp] theorem State.storeBytes_rnd (s : State) (b : Nat) (vs : List Byte) : (s.storeBytes b vs).rnd = s.rnd := rfl
@[simp] theorem State.storeBytes_keyAnswer (s : State) (b : Nat) (vs : List Byte) : (s.storeBytes b vs).keyAnswer = s.keyAnswer := rfl
@[simp] theorem State.storeBytes_draws (s : State) (b : Nat) (vs : List Byte) : (s.storeBytes b vs).draws = s.draws := rfl
@[simp] theorem State.storeBytes_readV (s : State) (b : Nat) (vs : List Byte) (r : Reg) : (s.storeBytes b vs).readV r = s.readV r := rfl
@[simp] theorem State.storeBytes_base (s : State) (b : Nat) (vs : List Byte) : (s.storeBytes b vs).base = s.base := rfl
@[simp] theorem State.storeBytes_depth (s : State) (b : Nat) (vs : List Byte) : (s.storeBytes b vs).depth = s.depth := rfl
@[simp] theorem State.storeBytes_keyLines (s : State) (b : Nat) (vs : List Byte) : (s.storeBytes b vs).keyLines = s.keyLines := rfl
@[simp] theorem State.storeBytes_randomByte (s : State) (b : Nat) (vs : List Byte) : (s.storeBytes b vs).randomByte = s.randomByte := rfl
@[simp] theorem State.storeBytes_outsideAnswer (s : State) (b : Nat) (vs : List Byte) : (s.storeBytes b vs).outsideAnswer = s.outsideAnswer := rfl

/-! `loadBlock` -/

@[simp] theorem State.loadBlock_I (s : State) (x : Reg) : (s.loadBlock x).I = s.I := rfl
@[simp] theorem State.loadBlock_pc (s : State) (x : Reg) : (s.loadBlock x).pc = s.pc := rfl
@[simp] theorem State.loadBlock_stack (s : State) (x : Reg) : (s.loadBlock x).stack = s.stack := rfl
@[simp] theorem State.loadBlock_DT (s : State) (x : Reg) : (s.loadBlock x).DT = s.DT := rfl
@[simp] theorem State.loadBlock_ST (s : State) (x : Reg) : (s.loadBlock x).ST = s.ST := rfl
@[simp] theorem State.loadBlock_mem (s : State) (x : Reg) : (s.loadBlock x).mem = s.mem := rfl
@[simp] theorem State.loadBlock_fb (s : State) (x : Reg) : (s.loadBlock x).fb = s.fb := rfl
@[simp] theorem State.loadBlock_keys (s : State) (x : Reg) : (s.loadBlock x).keys = s.keys := rfl
@[simp] theorem State.loadBlock_rnd (s : State) (x : Reg) : (s.loadBlock x).rnd = s.rnd := rfl
@[simp] theorem State.loadBlock_keyAnswer (s : State) (x : Reg) : (s.loadBlock x).keyAnswer = s.keyAnswer := rfl
@[simp] theorem State.loadBlock_draws (s : State) (x : Reg) : (s.loadBlock x).draws = s.draws := rfl
@[simp] theorem State.loadBlock_byteAt (s : State) (x : Reg) (a : Nat) : (s.loadBlock x).byteAt a = s.byteAt a := rfl
@[simp] theorem State.loadBlock_base (s : State) (x : Reg) : (s.loadBlock x).base = s.base := rfl
@[simp] theorem State.loadBlock_depth (s : State) (x : Reg) : (s.loadBlock x).depth = s.depth := rfl
@[simp] theorem State.loadBlock_keyLines (s : State) (x : Reg) : (s.loadBlock x).keyLines = s.keyLines := rfl
@[simp] theorem State.loadBlock_randomByte (s : State) (x : Reg) : (s.loadBlock x).randomByte = s.randomByte := rfl
@[simp] theorem State.loadBlock_outsideAnswer (s : State) (x : Reg) : (s.loadBlock x).outsideAnswer = s.outsideAnswer := rfl

/-! `usedKeys` -/

@[simp] theorem State.usedKeys_V (s : State) : s.usedKeys.V = s.V := by unfold State.usedKeys; split <;> rfl
@[simp] theorem State.usedKeys_I (s : State) : s.usedKeys.I = s.I := by unfold State.usedKeys; split <;> rfl
@[simp] theorem State.usedKeys_pc (s : State) : s.usedKeys.pc = s.pc := by unfold State.usedKeys; split <;> rfl
@[simp] theorem State.usedKeys_stack (s : State) : s.usedKeys.stack = s.stack := by unfold State.usedKeys; split <;> rfl
@[simp] theorem State.usedKeys_DT (s : State) : s.usedKeys.DT = s.DT := by unfold State.usedKeys; split <;> rfl
@[simp] theorem State.usedKeys_ST (s : State) : s.usedKeys.ST = s.ST := by unfold State.usedKeys; split <;> rfl
@[simp] theorem State.usedKeys_mem (s : State) : s.usedKeys.mem = s.mem := by unfold State.usedKeys; split <;> rfl
@[simp] theorem State.usedKeys_fb (s : State) : s.usedKeys.fb = s.fb := by unfold State.usedKeys; split <;> rfl
@[simp] theorem State.usedKeys_keys (s : State) : s.usedKeys.keys = s.keys := by unfold State.usedKeys; split <;> rfl
@[simp] theorem State.usedKeys_rnd (s : State) : s.usedKeys.rnd = s.rnd := by unfold State.usedKeys; split <;> rfl
@[simp] theorem State.usedKeys_keyAnswer (s : State) : s.usedKeys.keyAnswer = s.keyAnswer := by unfold State.usedKeys; split <;> rfl
@[simp] theorem State.usedKeys_draws (s : State) : s.usedKeys.draws = if s.keys.isSome then s.draws else s.draws + 1 := by unfold State.usedKeys; split <;> rfl
@[simp] theorem State.usedKeys_readV (s : State) (r : Reg) : s.usedKeys.readV r = s.readV r := by unfold State.usedKeys; split <;> rfl
@[simp] theorem State.usedKeys_byteAt (s : State) (a : Nat) : s.usedKeys.byteAt a = s.byteAt a := by unfold State.usedKeys; split <;> rfl
@[simp] theorem State.usedKeys_base (s : State) : s.usedKeys.base = s.base := by unfold State.usedKeys; split <;> rfl
@[simp] theorem State.usedKeys_depth (s : State) : s.usedKeys.depth = s.depth := by unfold State.usedKeys; split <;> rfl

/-! `usedRandom` -/

@[simp] theorem State.usedRandom_V (s : State) : s.usedRandom.V = s.V := rfl
@[simp] theorem State.usedRandom_I (s : State) : s.usedRandom.I = s.I := rfl
@[simp] theorem State.usedRandom_pc (s : State) : s.usedRandom.pc = s.pc := rfl
@[simp] theorem State.usedRandom_stack (s : State) : s.usedRandom.stack = s.stack := rfl
@[simp] theorem State.usedRandom_DT (s : State) : s.usedRandom.DT = s.DT := rfl
@[simp] theorem State.usedRandom_ST (s : State) : s.usedRandom.ST = s.ST := rfl
@[simp] theorem State.usedRandom_mem (s : State) : s.usedRandom.mem = s.mem := rfl
@[simp] theorem State.usedRandom_fb (s : State) : s.usedRandom.fb = s.fb := rfl
@[simp] theorem State.usedRandom_keys (s : State) : s.usedRandom.keys = s.keys := rfl
@[simp] theorem State.usedRandom_rnd (s : State) : s.usedRandom.rnd = none := rfl
@[simp] theorem State.usedRandom_keyAnswer (s : State) : s.usedRandom.keyAnswer = s.keyAnswer := rfl
@[simp] theorem State.usedRandom_draws (s : State) : s.usedRandom.draws = s.draws + 1 := rfl
@[simp] theorem State.usedRandom_readV (s : State) (r : Reg) : s.usedRandom.readV r = s.readV r := rfl
@[simp] theorem State.usedRandom_byteAt (s : State) (a : Nat) : s.usedRandom.byteAt a = s.byteAt a := rfl
@[simp] theorem State.usedRandom_base (s : State) : s.usedRandom.base = s.base := rfl
@[simp] theorem State.usedRandom_depth (s : State) : s.usedRandom.depth = s.depth := rfl

/-! `usedAnswer` -/

@[simp] theorem State.usedAnswer_V (s : State) : s.usedAnswer.V = s.V := rfl
@[simp] theorem State.usedAnswer_I (s : State) : s.usedAnswer.I = s.I := rfl
@[simp] theorem State.usedAnswer_pc (s : State) : s.usedAnswer.pc = s.pc := rfl
@[simp] theorem State.usedAnswer_stack (s : State) : s.usedAnswer.stack = s.stack := rfl
@[simp] theorem State.usedAnswer_DT (s : State) : s.usedAnswer.DT = s.DT := rfl
@[simp] theorem State.usedAnswer_ST (s : State) : s.usedAnswer.ST = s.ST := rfl
@[simp] theorem State.usedAnswer_mem (s : State) : s.usedAnswer.mem = s.mem := rfl
@[simp] theorem State.usedAnswer_fb (s : State) : s.usedAnswer.fb = s.fb := rfl
@[simp] theorem State.usedAnswer_keys (s : State) : s.usedAnswer.keys = s.keys := rfl
@[simp] theorem State.usedAnswer_rnd (s : State) : s.usedAnswer.rnd = s.rnd := rfl
@[simp] theorem State.usedAnswer_keyAnswer (s : State) : s.usedAnswer.keyAnswer = none := rfl
@[simp] theorem State.usedAnswer_draws (s : State) : s.usedAnswer.draws = s.draws + 1 := rfl
@[simp] theorem State.usedAnswer_readV (s : State) (r : Reg) : s.usedAnswer.readV r = s.readV r := rfl
@[simp] theorem State.usedAnswer_byteAt (s : State) (a : Nat) : s.usedAnswer.byteAt a = s.byteAt a := rfl
@[simp] theorem State.usedAnswer_base (s : State) : s.usedAnswer.base = s.base := rfl
@[simp] theorem State.usedAnswer_depth (s : State) : s.usedAnswer.depth = s.depth := rfl

/-! `withInputs` -/

@[simp] theorem State.withInputs_V (s : State) (k : BitVec 16) (b : Byte) (c : Bool) : (s.withInputs k b c).V = s.V := rfl
@[simp] theorem State.withInputs_I (s : State) (k : BitVec 16) (b : Byte) (c : Bool) : (s.withInputs k b c).I = s.I := rfl
@[simp] theorem State.withInputs_pc (s : State) (k : BitVec 16) (b : Byte) (c : Bool) : (s.withInputs k b c).pc = s.pc := rfl
@[simp] theorem State.withInputs_stack (s : State) (k : BitVec 16) (b : Byte) (c : Bool) : (s.withInputs k b c).stack = s.stack := rfl
@[simp] theorem State.withInputs_DT (s : State) (k : BitVec 16) (b : Byte) (c : Bool) : (s.withInputs k b c).DT = s.DT := rfl
@[simp] theorem State.withInputs_ST (s : State) (k : BitVec 16) (b : Byte) (c : Bool) : (s.withInputs k b c).ST = s.ST := rfl
@[simp] theorem State.withInputs_mem (s : State) (k : BitVec 16) (b : Byte) (c : Bool) : (s.withInputs k b c).mem = s.mem := rfl
@[simp] theorem State.withInputs_fb (s : State) (k : BitVec 16) (b : Byte) (c : Bool) : (s.withInputs k b c).fb = s.fb := rfl
@[simp] theorem State.withInputs_keys (s : State) (k : BitVec 16) (b : Byte) (c : Bool) : (s.withInputs k b c).keys = some k := rfl
@[simp] theorem State.withInputs_rnd (s : State) (k : BitVec 16) (b : Byte) (c : Bool) : (s.withInputs k b c).rnd = some b := rfl
@[simp] theorem State.withInputs_keyAnswer (s : State) (k : BitVec 16) (b : Byte) (c : Bool) : (s.withInputs k b c).keyAnswer = some c := rfl
@[simp] theorem State.withInputs_draws (s : State) (k : BitVec 16) (b : Byte) (c : Bool) : (s.withInputs k b c).draws = s.draws := rfl
@[simp] theorem State.withInputs_readV (s : State) (k : BitVec 16) (b : Byte) (c : Bool) (r : Reg) : (s.withInputs k b c).readV r = s.readV r := rfl
@[simp] theorem State.withInputs_byteAt (s : State) (k : BitVec 16) (b : Byte) (c : Bool) (a : Nat) : (s.withInputs k b c).byteAt a = s.byteAt a := rfl
@[simp] theorem State.withInputs_base (s : State) (k : BitVec 16) (b : Byte) (c : Bool) : (s.withInputs k b c).base = s.base := rfl
@[simp] theorem State.withInputs_depth (s : State) (k : BitVec 16) (b : Byte) (c : Bool) : (s.withInputs k b c).depth = s.depth := rfl

/-! `afterKeyQuery`: only the inputs can change -/

@[simp] theorem State.afterKeyQuery_V (s : State) (v : Byte) : (s.afterKeyQuery v).V = s.V := by
  unfold State.afterKeyQuery; split <;> simp
@[simp] theorem State.afterKeyQuery_I (s : State) (v : Byte) : (s.afterKeyQuery v).I = s.I := by
  unfold State.afterKeyQuery; split <;> simp
@[simp] theorem State.afterKeyQuery_pc (s : State) (v : Byte) : (s.afterKeyQuery v).pc = s.pc := by
  unfold State.afterKeyQuery; split <;> simp
@[simp] theorem State.afterKeyQuery_stack (s : State) (v : Byte) : (s.afterKeyQuery v).stack = s.stack := by
  unfold State.afterKeyQuery; split <;> simp
@[simp] theorem State.afterKeyQuery_DT (s : State) (v : Byte) : (s.afterKeyQuery v).DT = s.DT := by
  unfold State.afterKeyQuery; split <;> simp
@[simp] theorem State.afterKeyQuery_ST (s : State) (v : Byte) : (s.afterKeyQuery v).ST = s.ST := by
  unfold State.afterKeyQuery; split <;> simp
@[simp] theorem State.afterKeyQuery_mem (s : State) (v : Byte) : (s.afterKeyQuery v).mem = s.mem := by
  unfold State.afterKeyQuery; split <;> simp
@[simp] theorem State.afterKeyQuery_fb (s : State) (v : Byte) : (s.afterKeyQuery v).fb = s.fb := by
  unfold State.afterKeyQuery; split <;> simp
@[simp] theorem State.afterKeyQuery_keys (s : State) (v : Byte) : (s.afterKeyQuery v).keys = s.keys := by
  unfold State.afterKeyQuery; split <;> simp
@[simp] theorem State.afterKeyQuery_rnd (s : State) (v : Byte) : (s.afterKeyQuery v).rnd = s.rnd := by
  unfold State.afterKeyQuery; split <;> simp
@[simp] theorem State.afterKeyQuery_readV (s : State) (v : Byte) (r : Reg) : (s.afterKeyQuery v).readV r = s.readV r := by
  unfold State.afterKeyQuery; split <;> simp
@[simp] theorem State.afterKeyQuery_byteAt (s : State) (v : Byte) (a : Nat) : (s.afterKeyQuery v).byteAt a = s.byteAt a := by
  unfold State.afterKeyQuery; split <;> simp
@[simp] theorem State.afterKeyQuery_base (s : State) (v : Byte) : (s.afterKeyQuery v).base = s.base := by
  unfold State.afterKeyQuery; split <;> simp
@[simp] theorem State.afterKeyQuery_depth (s : State) (v : Byte) : (s.afterKeyQuery v).depth = s.depth := by
  unfold State.afterKeyQuery; split <;> simp

/-! Reads of registers after writes of registers (R10, R12). -/

/-- A register reads as last written, every other as before. -/
theorem State.readV_writeV (s : State) (x r : Reg) (v : Byte) :
    (s.writeV x v).readV r = if r = x then v else s.readV r := by
  unfold State.writeV State.readV
  rw [Vector.getElem_set]
  by_cases h : r = x
  · simp [h]
  · have : ¬ x.val = r.val := fun e => h (Fin.ext e.symm)
    simp [h, this]

@[simp] theorem State.readV_writeV_same (s : State) (x : Reg) (v : Byte) : (s.writeV x v).readV x = v := by
  simp [State.readV_writeV]

theorem State.readV_writeV_of_ne (s : State) {x r : Reg} (v : Byte) (h : r ≠ x) :
    (s.writeV x v).readV r = s.readV r := by
  simp [State.readV_writeV, h]

theorem State.readV_writeFlag (s : State) (c : Bool) (r : Reg) :
    (s.writeFlag c).readV r = if r = VF then boolByte c else s.readV r :=
  State.readV_writeV s VF r (boolByte c)

@[simp] theorem State.readV_writeFlag_flag (s : State) (c : Bool) : (s.writeFlag c).readV VF = boolByte c := by
  simp [State.readV_writeFlag]

theorem State.readV_writeFlag_of_ne (s : State) {r : Reg} (c : Bool) (h : r ≠ VF) :
    (s.writeFlag c).readV r = s.readV r := by
  simp [State.readV_writeFlag, h]

/-- After `for k = 0 .. x: V[k] <- mem[I + k]` (R105). -/
theorem State.readV_loadBlock (s : State) (x r : Reg) :
    (s.loadBlock x).readV r = if r ≤ x then s.byteAt (s.base + r.val) else s.readV r := by
  simp [State.loadBlock, State.readV]

/-- The sum modulo 256 (R81, R87). -/
theorem byte_add_eq (a b : Byte) : a + b = BitVec.ofNat 8 ((a.toNat + b.toNat) % 256) := by
  apply BitVec.eq_of_toNat_eq
  simp [BitVec.toNat_add]

@[simp] theorem boolByte_true : boolByte true = 1 := rfl
@[simp] theorem boolByte_false : boolByte false = 0 := rfl

end Sys2Proof.Machine
end

