-- ==== Sys2Proof/Laws/Ops.lean ====
section
/-! SUPPORT. One specification lemma for each shared operation: fetching, the step, blocks of registers, decimal digits,
the key scan, the timers, staging, pixels, and the host's operations. Proofs cite these and do not unfold. -/

namespace Sys2Proof.Machine

/-! ### Fetch and step (R60, R61) -/

theorem State.fetchWord_eq_some {s : State} {w : Word} :
    s.fetchWord = some w ↔
      s.pc.toNat ≤ 4094 ∧ w = wordOfBytes (s.byteAt s.pc.toNat) (s.byteAt (s.pc.toNat + 1)) := by
  unfold State.fetchWord Config.memSize
  split
  · simp [eq_comm]; omega
  · simp; omega

theorem State.fetchWord_eq_none {s : State} : s.fetchWord = none ↔ 4094 < s.pc.toNat := by
  unfold State.fetchWord Config.memSize
  split
  · simp; omega
  · simp; omega

/-- The fetch reads only `pc` and memory. -/
theorem State.fetchWord_congr {s t : State} (hpc : t.pc = s.pc) (hmem : t.mem = s.mem) : t.fetchWord = s.fetchWord := by
  simp [State.fetchWord, State.byteAt, hpc, hmem]

/-- What a step can do: fault on the fetch, or be `exec` of the decoded word. -/
theorem step_eq (s : State) :
    (s.fetchWord = none ∧ step s = .fault (.memoryOutOfBounds s.pc none)) ∨
      ∃ w, s.fetchWord = some w ∧ step s = exec (decodeWord w) s := by
  unfold step
  cases h : s.fetchWord with
  | none => exact .inl ⟨rfl, rfl⟩
  | some w => exact .inr ⟨w, rfl, rfl⟩

/-- A step that answers a next state ran a fetched instruction from an address of at most 4094. -/
theorem step_next {s t : State} (h : step s = .next t) :
    ∃ w, s.fetchWord = some w ∧ s.pc.toNat ≤ 4094 ∧ exec (decodeWord w) s = .next t := by
  rcases step_eq s with ⟨_, hf⟩ | ⟨w, hw, he⟩
  · rw [hf] at h; cases h
  · exact ⟨w, hw, (State.fetchWord_eq_some.1 hw).1, he ▸ h⟩

/-- A fault is all that `raiseFault` answers, with the address of the instruction (R134). -/
theorem raiseFault_eq (kind : Word → Option Word → Fault) (op : Option Word) (s : State) :
    raiseFault kind op s = .fault (kind s.pc op) := rfl

/-! ### Frames -/

theorem keepsAllBut_iff {ps : List Part} {s t : State} :
    KeepsAllBut ps s t ↔
      (.regs ∉ ps → ∀ r, t.readV r = s.readV r) ∧ (.index ∉ ps → t.I = s.I) ∧ (.pc ∉ ps → t.pc = s.pc) ∧
      (.stack ∉ ps → t.stack = s.stack) ∧ (.delay ∉ ps → t.DT = s.DT) ∧ (.sound ∉ ps → t.ST = s.ST) ∧
      (.memory ∉ ps → ∀ a, t.byteAt a = s.byteAt a) ∧ (.display ∉ ps → t.fb = s.fb) ∧
      (.inputs ∉ ps → t.keys = s.keys ∧ t.rnd = s.rnd ∧ t.keyAnswer = s.keyAnswer ∧ t.draws = s.draws) := by
  constructor
  · intro h
    exact ⟨h .regs, h .index, h .pc, h .stack, h .delay, h .sound, h .memory, h .display, h .inputs⟩
  · rintro ⟨h1, h2, h3, h4, h5, h6, h7, h8, h9⟩ p hp
    cases p
    · exact h1 hp
    · exact h2 hp
    · exact h3 hp
    · exact h4 hp
    · exact h5 hp
    · exact h6 hp
    · exact h7 hp
    · exact h8 hp
    · exact h9 hp

/-! ### Blocks of registers and digits (R103, R104) -/

@[simp] theorem State.length_blockValues (s : State) (x : Reg) : (s.blockValues x).length = x.val + 1 := by
  simp [State.blockValues, blockLength]

theorem State.getD_blockValues (s : State) (x k : Reg) (h : k ≤ x) : (s.blockValues x).getD k.val 0 = s.readV k := by
  have hk : k.val < x.val + 1 := Nat.lt_succ_of_le h
  simp [State.blockValues, blockLength, State.readV, List.getD_eq_getElem?_getD, hk]

@[simp] theorem length_decimalDigits (v : Byte) : (decimalDigits v).length = 3 := rfl

/-! ### The stack and the data address (R16, R106) -/

theorem State.stackFull_iff (s : State) : s.stackFull = true ↔ 16 ≤ s.depth := by
  unfold State.stackFull
  rw [decide_eq_true_iff]
  exact Iff.rfl

theorem State.base_eq (s : State) : s.base = s.I.toNat := rfl

/-! ### The key scan (R125) -/

/-- The scan finds the least key that is down. -/
theorem State.firstKeyDown_eq_some {s : State} {k : Reg} :
    s.firstKeyDown = some k ↔
      s.keyLines.getLsbD k.val = true ∧ ∀ j : Reg, j < k → s.keyLines.getLsbD j.val = false := by
  unfold State.firstKeyDown
  rw [List.find?_eq_some_iff_getElem]
  constructor
  · rintro ⟨hk, i, hi, he, hj⟩
    rw [List.getElem_finRange] at he
    subst he
    refine ⟨by simpa using hk, fun j hj' => ?_⟩
    have := hj j.val (by simpa [Fin.lt_def] using hj')
    simpa using this
  · rintro ⟨hk, hj⟩
    refine ⟨by simpa using hk, k.val, by simp, by simp, fun j hjk => ?_⟩
    have := hj ⟨j, by omega⟩ (by simpa [Fin.lt_def] using hjk)
    simpa using this

/-- The scan finds nothing exactly when no key is down. -/
theorem State.firstKeyDown_eq_none {s : State} :
    s.firstKeyDown = none ↔ ∀ j : Reg, s.keyLines.getLsbD j.val = false := by
  simp [State.firstKeyDown, List.find?_eq_none]

/-- A held key vector is the vector of the step, and the scan uses nothing up. -/
theorem State.usedKeys_of_held {s : State} (h : s.keys ≠ none) : s.usedKeys = s := by
  cases hk : s.keys with
  | none => exact absurd hk h
  | some k => simp [State.usedKeys, hk]

/-! ### Timers (R140) -/

theorem toNat_tickDown (t : Byte) : (tickDown t).toNat = t.toNat - 1 := by
  unfold tickDown
  split
  · next h =>
    have := t.isLt
    rw [BitVec.toNat_sub]
    simp
    omega
  · omega

@[simp] theorem State.tickTimers_pc (s : State) : s.tickTimers.pc = s.pc := rfl
@[simp] theorem State.tickTimers_V (s : State) : s.tickTimers.V = s.V := rfl
@[simp] theorem State.tickTimers_I (s : State) : s.tickTimers.I = s.I := rfl
@[simp] theorem State.tickTimers_stack (s : State) : s.tickTimers.stack = s.stack := rfl
@[simp] theorem State.tickTimers_mem (s : State) : s.tickTimers.mem = s.mem := rfl
@[simp] theorem State.tickTimers_fb (s : State) : s.tickTimers.fb = s.fb := rfl
@[simp] theorem State.tickTimers_DT (s : State) : s.tickTimers.DT = tickDown s.DT := rfl
@[simp] theorem State.tickTimers_ST (s : State) : s.tickTimers.ST = tickDown s.ST := rfl

/-! ### Staging (R41, R42) -/

/-- `loadProgram` fails iff the program does not fit, else it is one run of writes from `0x200`. -/
theorem State.loadProgram_eq (s : State) (bytes : List Byte) :
    s.loadProgram bytes =
      if 0x200 + bytes.length > 4096 then .error .programTooLarge else .ok (s.storeBytes 0x200 bytes) := rfl

/-! ### Pixels (R19, R111) -/

/-- Flipping a pixel inverts it and leaves every other as it was. -/
theorem Frame.pixel_flip (fb : Frame) (tx tx' : Fin 64) (ty ty' : Fin 32) :
    (fb.flip tx ty).pixel tx' ty' = if tx' = tx ∧ ty' = ty then !fb.pixel tx' ty' else fb.pixel tx' ty' := by
  unfold Frame.flip Frame.pixel
  rw [Vector.getElem_set]
  by_cases hy : ty' = ty
  · subst hy
    simp only [if_true, and_true]
    rw [Vector.getElem_set]
    by_cases hx : tx' = tx
    · simp [hx]
    · have : ¬ tx.val = tx'.val := fun e => hx (Fin.ext e.symm)
      simp [hx, this]
  · have : ¬ ty.val = ty'.val := fun e => hy (Fin.ext e.symm)
    simp [hy, this]

@[simp] theorem Frame.pixel_blank (tx : Fin 64) (ty : Fin 32) : Frame.blank.pixel tx ty = false := by
  simp [Frame.blank, Frame.pixel]

/-- Two frames with the same pixels are the same. -/
theorem Frame.ext_pixel {fb fb' : Frame} (h : ∀ tx ty, fb.pixel tx ty = fb'.pixel tx ty) : fb = fb' := by
  apply Vector.ext
  intro i hi
  apply Vector.ext
  intro j hj
  exact h ⟨j, hj⟩ ⟨i, hi⟩

/-- One column of one row (R111). -/
theorem pixel_drawPixel (px py : Nat) (b : Byte) (row col : Nat) (d : Drawing) (tx : Fin 64) (ty : Fin 32) :
    (drawPixel px py b row col d).fb.pixel tx ty =
      if spriteBit b col = true ∧ tx = wrapX px col ∧ ty = wrapY py row then !d.fb.pixel tx ty
      else d.fb.pixel tx ty := by
  unfold drawPixel
  by_cases h : spriteBit b col = true
  · simp [h, Frame.pixel_flip]
  · simp [h]

theorem collision_drawPixel (px py : Nat) (b : Byte) (row col : Nat) (d : Drawing) :
    (drawPixel px py b row col d).collision =
      (d.collision || (spriteBit b col && d.fb.pixel (wrapX px col) (wrapY py row))) := by
  unfold drawPixel
  by_cases h : spriteBit b col = true
  · simp [h]
  · simp [h]

/-! ### The host's operations (R161) -/

/-- What an operation that is not refused can be, and what it does. -/
theorem Session.apply_ok {se se' : Session} {op : HostOp} {reply : HostReply} (h : se.apply op = .ok (se', reply)) :
    (op = .loadFont ∧ se.phase = .constructed ∧ se' = { phase := .fontLoaded, machine := se.machine.loadFont } ∧
      reply = .ok) ∨
    (∃ bytes, op = .loadProgram bytes ∧ se.phase = .fontLoaded ∧ (se', reply) = se.load bytes) ∨
    (∃ k b a, op = .step k b a ∧ se.phase = .running ∧ se.stepWith k b a = .ok (se', reply)) ∨
    (op = .tickTimers ∧ se.phase = .running ∧ se' = { se with machine := se.machine.tickTimers } ∧ reply = .ok) ∨
    (op = .framebuffer ∧ se.phase = .running ∧ se' = se ∧ reply = .pixels se.machine.fb) := by
  obtain ⟨ph, m⟩ := se
  cases ph <;> cases op <;> first | cases h | skip
  · exact .inl ⟨rfl, rfl, rfl, rfl⟩
  · exact .inr (.inl ⟨_, rfl, rfl, (Except.ok.inj h).symm⟩)
  · exact .inr (.inr (.inl ⟨_, _, _, rfl, rfl, h⟩))
  · exact .inr (.inr (.inr (.inl ⟨rfl, rfl, rfl, rfl⟩)))
  · exact .inr (.inr (.inr (.inr ⟨rfl, rfl, rfl, rfl⟩)))

end Sys2Proof.Machine
end

