-- ==== Sys2Proof/Laws/PerInstr.lean ====
section
/-! SUPPORT. A statement for every instruction: the word it is encoded as is accepted by its own row of the opcode table
(R55), and a well-formed unrecognized word by none (R57). -/

namespace Sys2Proof.Laws.EncodeRow

/-- The word of a well-formed instruction is accepted by the row of R55 that the instruction stands for; the default
row stands for the words no row accepts. -/
def Statement (i : Instr) : Prop :=
  i.wellFormed = true →
    (i.rowNumber = 0 ∧ recognized (encode i) = false) ∨
    ∃ row ∈ opcodeTable, row.number = i.rowNumber ∧ row.accepts (encode i) = true

/-- A row with mask `0xFFFF` accepts its own pattern. -/
theorem of_fixed {i : Instr} {w : Word} (hm : OpcodeRow.mk i.rowNumber 0xFFFF w ∈ opcodeTable) (he : encode i = w) :
    Statement i :=
  fun _ => .inr ⟨_, hm, rfl, by simpa [OpcodeRow.accepts, he] using BitVec.and_allOnes (x := w)⟩

/-- A row with mask `0xF000` accepts every word of its family. -/
theorem of_family {i : Instr} {f : BitVec 4} (hm : OpcodeRow.mk i.rowNumber 0xF000 (formatNNN f 0) ∈ opcodeTable)
    (he : fieldF (encode i) = f) : Statement i :=
  fun _ => .inr ⟨_, hm, rfl, beq_iff_eq.2 ((and_F000 _ _).2 he)⟩

/-- A row with mask `0xF00F` accepts every word of its family with its low nibble. -/
theorem of_nibble {i : Instr} {f n : BitVec 4} (hm : OpcodeRow.mk i.rowNumber 0xF00F (formatXYN f 0 0 n) ∈ opcodeTable)
    (he : fieldF (encode i) = f ∧ fieldN (encode i) = n) : Statement i :=
  fun _ => .inr ⟨_, hm, rfl, beq_iff_eq.2 ((and_F00F _ _ _).2 he)⟩

/-- A row with mask `0xF0FF` accepts every word of its family with its low byte. -/
theorem of_byte {i : Instr} {f : BitVec 4} {k : Byte} (hm : OpcodeRow.mk i.rowNumber 0xF0FF (formatXKK f 0 k) ∈ opcodeTable)
    (he : fieldF (encode i) = f ∧ fieldKK (encode i) = k) : Statement i :=
  fun _ => .inr ⟨_, hm, rfl, beq_iff_eq.2 ((and_F0FF _ _ _).2 he)⟩

theorem cls : Statement .cls :=
  of_fixed (w := 0x00E0) (by simp only [Instr.rowNumber]; decide) rfl

theorem ret : Statement .ret :=
  of_fixed (w := 0x00EE) (by simp only [Instr.rowNumber]; decide) rfl

theorem jp (nnn : BitVec 12) : Statement (.jp nnn) :=
  of_family (f := 0x1) (by simp only [Instr.rowNumber]; decide) (fieldF_formatNNN _ _)

theorem call (nnn : BitVec 12) : Statement (.call nnn) :=
  of_family (f := 0x2) (by simp only [Instr.rowNumber]; decide) (fieldF_formatNNN _ _)

theorem seImm (x : Reg) (kk : Byte) : Statement (.seImm x kk) :=
  of_family (f := 0x3) (by simp only [Instr.rowNumber]; decide) (fieldF_formatXKK _ _ _)

theorem sneImm (x : Reg) (kk : Byte) : Statement (.sneImm x kk) :=
  of_family (f := 0x4) (by simp only [Instr.rowNumber]; decide) (fieldF_formatXKK _ _ _)

theorem seReg (x y : Reg) : Statement (.seReg x y) :=
  of_nibble (f := 0x5) (n := 0x0) (by simp only [Instr.rowNumber]; decide)
    ⟨fieldF_formatXYN _ _ _ _, fieldN_formatXYN _ _ _ _⟩

theorem ldImm (x : Reg) (kk : Byte) : Statement (.ldImm x kk) :=
  of_family (f := 0x6) (by simp only [Instr.rowNumber]; decide) (fieldF_formatXKK _ _ _)

theorem addImm (x : Reg) (kk : Byte) : Statement (.addImm x kk) :=
  of_family (f := 0x7) (by simp only [Instr.rowNumber]; decide) (fieldF_formatXKK _ _ _)

theorem ldReg (x y : Reg) : Statement (.ldReg x y) :=
  of_nibble (f := 0x8) (n := 0x0) (by simp only [Instr.rowNumber]; decide)
    ⟨fieldF_formatXYN _ _ _ _, fieldN_formatXYN _ _ _ _⟩

theorem orReg (x y : Reg) : Statement (.orReg x y) :=
  of_nibble (f := 0x8) (n := 0x1) (by simp only [Instr.rowNumber]; decide)
    ⟨fieldF_formatXYN _ _ _ _, fieldN_formatXYN _ _ _ _⟩

theorem andReg (x y : Reg) : Statement (.andReg x y) :=
  of_nibble (f := 0x8) (n := 0x2) (by simp only [Instr.rowNumber]; decide)
    ⟨fieldF_formatXYN _ _ _ _, fieldN_formatXYN _ _ _ _⟩

theorem xorReg (x y : Reg) : Statement (.xorReg x y) :=
  of_nibble (f := 0x8) (n := 0x3) (by simp only [Instr.rowNumber]; decide)
    ⟨fieldF_formatXYN _ _ _ _, fieldN_formatXYN _ _ _ _⟩

theorem addReg (x y : Reg) : Statement (.addReg x y) :=
  of_nibble (f := 0x8) (n := 0x4) (by simp only [Instr.rowNumber]; decide)
    ⟨fieldF_formatXYN _ _ _ _, fieldN_formatXYN _ _ _ _⟩

theorem subReg (x y : Reg) : Statement (.subReg x y) :=
  of_nibble (f := 0x8) (n := 0x5) (by simp only [Instr.rowNumber]; decide)
    ⟨fieldF_formatXYN _ _ _ _, fieldN_formatXYN _ _ _ _⟩

theorem shr (x y : Reg) : Statement (.shr x y) :=
  of_nibble (f := 0x8) (n := 0x6) (by simp only [Instr.rowNumber]; decide)
    ⟨fieldF_formatXYN _ _ _ _, fieldN_formatXYN _ _ _ _⟩

theorem subnReg (x y : Reg) : Statement (.subnReg x y) :=
  of_nibble (f := 0x8) (n := 0x7) (by simp only [Instr.rowNumber]; decide)
    ⟨fieldF_formatXYN _ _ _ _, fieldN_formatXYN _ _ _ _⟩

theorem shl (x y : Reg) : Statement (.shl x y) :=
  of_nibble (f := 0x8) (n := 0xE) (by simp only [Instr.rowNumber]; decide)
    ⟨fieldF_formatXYN _ _ _ _, fieldN_formatXYN _ _ _ _⟩

theorem sneReg (x y : Reg) : Statement (.sneReg x y) :=
  of_nibble (f := 0x9) (n := 0x0) (by simp only [Instr.rowNumber]; decide)
    ⟨fieldF_formatXYN _ _ _ _, fieldN_formatXYN _ _ _ _⟩

theorem ldI (nnn : BitVec 12) : Statement (.ldI nnn) :=
  of_family (f := 0xA) (by simp only [Instr.rowNumber]; decide) (fieldF_formatNNN _ _)

theorem jpV0 (nnn : BitVec 12) : Statement (.jpV0 nnn) :=
  of_family (f := 0xB) (by simp only [Instr.rowNumber]; decide) (fieldF_formatNNN _ _)

theorem rnd (x : Reg) (kk : Byte) : Statement (.rnd x kk) :=
  of_family (f := 0xC) (by simp only [Instr.rowNumber]; decide) (fieldF_formatXKK _ _ _)

theorem drw (x y : Reg) (n : BitVec 4) : Statement (.drw x y n) :=
  of_family (f := 0xD) (by simp only [Instr.rowNumber]; decide) (fieldF_formatXYN _ _ _ _)

theorem skp (x : Reg) : Statement (.skp x) :=
  of_byte (f := 0xE) (k := 0x9E) (by simp only [Instr.rowNumber]; decide)
    ⟨fieldF_formatXKK _ _ _, fieldKK_formatXKK _ _ _⟩

theorem sknp (x : Reg) : Statement (.sknp x) :=
  of_byte (f := 0xE) (k := 0xA1) (by simp only [Instr.rowNumber]; decide)
    ⟨fieldF_formatXKK _ _ _, fieldKK_formatXKK _ _ _⟩

theorem ldVxDT (x : Reg) : Statement (.ldVxDT x) :=
  of_byte (f := 0xF) (k := 0x07) (by simp only [Instr.rowNumber]; decide)
    ⟨fieldF_formatXKK _ _ _, fieldKK_formatXKK _ _ _⟩

theorem ldVxK (x : Reg) : Statement (.ldVxK x) :=
  of_byte (f := 0xF) (k := 0x0A) (by simp only [Instr.rowNumber]; decide)
    ⟨fieldF_formatXKK _ _ _, fieldKK_formatXKK _ _ _⟩

theorem ldDTVx (x : Reg) : Statement (.ldDTVx x) :=
  of_byte (f := 0xF) (k := 0x15) (by simp only [Instr.rowNumber]; decide)
    ⟨fieldF_formatXKK _ _ _, fieldKK_formatXKK _ _ _⟩

theorem ldSTVx (x : Reg) : Statement (.ldSTVx x) :=
  of_byte (f := 0xF) (k := 0x18) (by simp only [Instr.rowNumber]; decide)
    ⟨fieldF_formatXKK _ _ _, fieldKK_formatXKK _ _ _⟩

theorem addI (x : Reg) : Statement (.addI x) :=
  of_byte (f := 0xF) (k := 0x1E) (by simp only [Instr.rowNumber]; decide)
    ⟨fieldF_formatXKK _ _ _, fieldKK_formatXKK _ _ _⟩

theorem ldF (x : Reg) : Statement (.ldF x) :=
  of_byte (f := 0xF) (k := 0x29) (by simp only [Instr.rowNumber]; decide)
    ⟨fieldF_formatXKK _ _ _, fieldKK_formatXKK _ _ _⟩

theorem ldB (x : Reg) : Statement (.ldB x) :=
  of_byte (f := 0xF) (k := 0x33) (by simp only [Instr.rowNumber]; decide)
    ⟨fieldF_formatXKK _ _ _, fieldKK_formatXKK _ _ _⟩

theorem storeRegs (x : Reg) : Statement (.storeRegs x) :=
  of_byte (f := 0xF) (k := 0x55) (by simp only [Instr.rowNumber]; decide)
    ⟨fieldF_formatXKK _ _ _, fieldKK_formatXKK _ _ _⟩

theorem loadRegs (x : Reg) : Statement (.loadRegs x) :=
  of_byte (f := 0xF) (k := 0x65) (by simp only [Instr.rowNumber]; decide)
    ⟨fieldF_formatXKK _ _ _, fieldKK_formatXKK _ _ _⟩

theorem unrecognized (word : Word) : Statement (.unrecognized word) :=
  fun h => .inl ⟨rfl, by simpa [Instr.wellFormed, encode] using h⟩

end Sys2Proof.Laws.EncodeRow
end

