-- ==== Sys2Proof/Tests/Slice0.lean ====
section
/-! SUPPORT. Tests with expected results from spec/95_test_vectors.md and the encodings of spec/30_encoding.md, and for
every obligation with hypotheses a witness that meets them. -/

namespace Sys2Proof.Tests

open Sys2Proof Sys2Proof.Machine

/-! ### Helpers -/

/-- The reset state with some registers set. -/
def start (vs : List (Reg × Byte)) : State := vs.foldl (fun s p => s.writeV p.1 p.2) State.reset

/-- The state after one step on a table word placed at `pc`; none if the step did not complete. -/
def after (s : State) (w : Nat) : Option State :=
  match step (s.withFetchWord 16 w) with
  | .next t => some t
  | _ => none

/-- The fault record of one step on a table word placed at `pc`. -/
def faultOf (s : State) (w : Nat) : Option Fault :=
  match step (s.withFetchWord 16 w) with
  | .fault r => some r
  | _ => none

/-- A state with `n` return addresses on the stack. -/
def withDepth (n : Nat) (s : State) : State := { s with stack := List.replicate n 0x0300 }

/-! ### Well-formedness -/

theorem test_wellFormed_refuses_recognized_word : (Instr.unrecognized 0x00E0).wellFormed = false := by decide

theorem test_wellFormed_refuses_jump_word : (Instr.unrecognized 0x1234).wellFormed = false := by decide

theorem test_wellFormed_accepts_unmatched_word : (Instr.unrecognized 0x5121).wellFormed = true := by decide

theorem test_wellFormed_accepts_draw : (Instr.drw 0 1 15).wellFormed = true := by decide

/-! ### The table (R55) -/

theorem test_table_rows_disjoint :
    opcodeTable.Pairwise (fun a b => a.pattern &&& (a.mask &&& b.mask) ≠ b.pattern &&& (a.mask &&& b.mask)) := by
  decide

theorem test_table_patterns_within_masks : ∀ r ∈ opcodeTable, r.pattern &&& r.mask = r.pattern := by decide

theorem test_table_has_34_rows : opcodeTable.map (fun r => r.number) = (List.range 34).map (fun k => k + 1) := by decide

/-! ### Decoding: words written out bit by bit from the formats of R52 and the patterns of R55 -/

theorem test_decode_fixed :
    decodeWord 0b0000000011100000 = .cls ∧
    decodeWord 0b0000000011101110 = .ret := by decide

theorem test_decode_jumps :
    decodeWord 0b0001101010111100 = .jp 0xABC ∧
    decodeWord 0b0010001000001010 = .call 0x20A ∧
    decodeWord 0b1011111111111111 = .jpV0 0xFFF := by decide

theorem test_decode_skips :
    decodeWord 0b0011111100000001 = .seImm 15 0x01 ∧
    decodeWord 0b0100001100010000 = .sneImm 3 0x10 ∧
    decodeWord 0b0101000100100000 = .seReg 1 2 ∧
    decodeWord 0b1001000100100000 = .sneReg 1 2 := by decide

theorem test_decode_immediates :
    decodeWord 0b0110101000101011 = .ldImm 10 0x2B ∧
    decodeWord 0b0111000111111111 = .addImm 1 0xFF ∧
    decodeWord 0b1100000100001111 = .rnd 1 0x0F := by decide

theorem test_decode_moves_and_logic :
    decodeWord 0b1000000100100000 = .ldReg 1 2 ∧
    decodeWord 0b1000000100100001 = .orReg 1 2 ∧
    decodeWord 0b1000000100100010 = .andReg 1 2 ∧
    decodeWord 0b1000000100100011 = .xorReg 1 2 := by decide

theorem test_decode_flag_writers :
    decodeWord 0b1000101010110100 = .addReg 10 11 ∧
    decodeWord 0b1000101010110101 = .subReg 10 11 ∧
    decodeWord 0b1000101010110110 = .shr 10 11 ∧
    decodeWord 0b1000101010110111 = .subnReg 10 11 ∧
    decodeWord 0b1000101010111110 = .shl 10 11 := by decide

theorem test_decode_index_and_memory :
    decodeWord 0b1010001011110000 = .ldI 0x2F0 ∧
    decodeWord 0b1111001000011110 = .addI 2 ∧
    decodeWord 0b1111010100101001 = .ldF 5 ∧
    decodeWord 0b1111000100110011 = .ldB 1 ∧
    decodeWord 0b1111001001010101 = .storeRegs 2 ∧
    decodeWord 0b1111001001100101 = .loadRegs 2 := by decide

theorem test_decode_draw :
    decodeWord 0b1101000000010101 = .drw 0 1 5 ∧
    decodeWord 0b1101111000011111 = .drw 14 1 15 := by decide

theorem test_decode_timers_and_keys :
    decodeWord 0b1110001010011110 = .skp 2 ∧
    decodeWord 0b1110001010100001 = .sknp 2 ∧
    decodeWord 0b1111010000000111 = .ldVxDT 4 ∧
    decodeWord 0b1111001100001010 = .ldVxK 3 ∧
    decodeWord 0b1111001100010101 = .ldDTVx 3 ∧
    decodeWord 0b1111001100011000 = .ldSTVx 3 := by decide

theorem test_decode_unrecognized :
    ([0x0000, 0x00E1, 0x01E0, 0x0FEE, 0x0200, 0x5121, 0x9009, 0x8AB8, 0x8ABF, 0xE19F, 0xE100, 0xF1FF, 0xF175,
      0xF100] : List Word).all (fun w => decodeWord w == .unrecognized w) = true := by decide

theorem test_decode_bytes_big_endian : decodeBytes [0x12, 0x34, 0x56] = .ok (.jp 0x234, [0x56]) := by decide

theorem test_decode_bytes_truncated : decodeBytes [0x12] = .error .truncated := by decide

theorem test_decode_table_word : decodeTableWord 16 0x00EE = some .ret := by decide

/-! ### One step of each instruction (spec/95_test_vectors.md part 2) -/

theorem test_cls_blanks :
    (after (({ State.reset with fb := Vector.replicate 32 (Vector.replicate 64 true) } : State).writeV VF 1) 0x00E0).map (fun t => (t.fb.pixel 0 0, t.fb.pixel 63 31, t.readV VF, t.pc)) =
      some (false, false, 1, 0x202) := by decide

theorem test_ret_pops :
    (after ({ State.reset with stack := [0x0456, 0x0300] } : State) 0x00EE).map (fun t => (t.pc, t.stack)) =
      some (0x456, [0x300]) := by decide

theorem test_ret_underflow : faultOf State.reset 0x00EE = some (.stackUnderflow 0x200 (some 0x00EE)) := by decide

theorem test_jp :
    (after State.reset 0x1ABC).map (fun t => (t.pc, t.stack)) =
      some (0xABC, []) := by decide

theorem test_call_at_top_of_memory :
    (after (withDepth 15 (State.reset.jumpTo 0xFFE)) 0x2ABC).map (fun t => (t.pc, t.depth, t.stack.head?)) =
      some (0xABC, 16, some 0x1000) := by decide

theorem test_call_overflow : faultOf (withDepth 16 State.reset) 0x2ABC = some (.stackOverflow 0x200 (some 0x2ABC)) := by decide

theorem test_seImm_equal :
    (after (start [(3, 0x10)]) 0x3310).map (fun t => t.pc) =
      some 0x204 := by decide

theorem test_seImm_different :
    (after (start [(3, 0x11)]) 0x3310).map (fun t => t.pc) =
      some 0x202 := by decide

theorem test_sneImm_equal :
    (after (start [(3, 0x10)]) 0x4310).map (fun t => t.pc) =
      some 0x202 := by decide

theorem test_sneImm_different :
    (after (start [(3, 0x11)]) 0x4310).map (fun t => t.pc) =
      some 0x204 := by decide

theorem test_seReg_equal :
    (after (start [(1, 7), (2, 7)]) 0x5120).map (fun t => t.pc) =
      some 0x204 := by decide

theorem test_seReg_different :
    (after (start [(1, 7), (2, 8)]) 0x5120).map (fun t => t.pc) =
      some 0x202 := by decide

theorem test_sneReg_equal :
    (after (start [(1, 7), (2, 7)]) 0x9120).map (fun t => t.pc) =
      some 0x202 := by decide

theorem test_sneReg_different :
    (after (start [(1, 7), (2, 8)]) 0x9120).map (fun t => t.pc) =
      some 0x204 := by decide

theorem test_ldImm :
    (after (start [(15, 0x33)]) 0x63F0).map (fun t => (t.readV 3, t.readV VF, t.pc)) =
      some (0xF0, 0x33, 0x202) := by decide

theorem test_addImm_wraps_without_flag :
    (after (start [(0, 0xFF), (15, 1)]) 0x7001).map (fun t => (t.readV 0, t.readV VF)) =
      some (0x00, 1) := by decide

theorem test_addImm_into_flag :
    (after (start [(15, 0xFF)]) 0x7F01).map (fun t => t.readV VF) =
      some 0x00 := by decide

theorem test_ldReg :
    (after (start [(1, 0x42), (15, 7)]) 0x8010).map (fun t => (t.readV 0, t.readV 1, t.readV VF)) =
      some (0x42, 0x42, 7) := by decide

theorem test_orReg :
    (after (start [(0, 0xF0), (1, 0x0F), (15, 7)]) 0x8011).map (fun t => (t.readV 0, t.readV VF)) =
      some (0xFF, 7) := by decide

theorem test_andReg :
    (after (start [(0, 0xF0), (1, 0x3C), (15, 7)]) 0x8012).map (fun t => (t.readV 0, t.readV VF)) =
      some (0x30, 7) := by decide

theorem test_xorReg :
    (after (start [(0, 0xF0), (1, 0x3C), (15, 7)]) 0x8013).map (fun t => (t.readV 0, t.readV VF)) =
      some (0xCC, 7) := by decide

theorem test_addReg_carry :
    (after (start [(0, 0xFF), (1, 0x01)]) 0x8014).map (fun t => (t.readV 0, t.readV VF)) =
      some (0x00, 1) := by decide

theorem test_addReg_from_flag :
    (after (start [(1, 0x90), (15, 0x80)]) 0x81F4).map (fun t => (t.readV 1, t.readV VF)) =
      some (0x10, 1) := by decide

theorem test_subReg_borrow :
    (after (start [(0, 1), (1, 5)]) 0x8015).map (fun t => (t.readV 0, t.readV VF)) =
      some (0xFC, 0) := by decide

theorem test_subReg_from_flag :
    (after (start [(0, 5), (15, 3)]) 0x80F5).map (fun t => (t.readV 0, t.readV VF)) =
      some (0x04, 1) := by decide

theorem test_shr_ignores_y :
    (after (start [(0, 5), (1, 0xAA)]) 0x8016).map (fun t => (t.readV 0, t.readV 1, t.readV VF)) =
      some (0x02, 0xAA, 1) := by decide

theorem test_shr_of_flag :
    (after (start [(15, 0xFF)]) 0x8F06).map (fun t => t.readV VF) =
      some 0x00 := by decide

theorem test_subnReg_equal :
    (after (start [(0, 7), (1, 7)]) 0x8017).map (fun t => (t.readV 0, t.readV VF)) =
      some (0x00, 0) := by decide

theorem test_subnReg_into_flag :
    (after (start [(15, 3), (1, 5)]) 0x8F17).map (fun t => t.readV VF) =
      some 0x04 := by decide

theorem test_shl_ignores_y :
    (after (start [(0, 0x81), (1, 0x55)]) 0x801E).map (fun t => (t.readV 0, t.readV 1, t.readV VF)) =
      some (0x02, 0x55, 1) := by decide

theorem test_shl_of_flag :
    (after (start [(15, 0xC1)]) 0x8F0E).map (fun t => t.readV VF) =
      some 0x02 := by decide

theorem test_ldI :
    (after State.reset 0xA2F0).map (fun t => t.I) =
      some 0x2F0 := by decide

theorem test_jpV0_not_masked :
    (after (start [(0, 0xFF)]) 0xBFFF).map (fun t => t.pc) =
      some 0x10FE := by decide

theorem test_jpV0_reads_only_v0 :
    (after (start [(0, 1), (3, 0x77)]) 0xB300).map (fun t => t.pc) =
      some 0x301 := by decide

theorem test_rnd_under_mask :
    (after ((start [(1, 0xAA)]).withInputs 0 0xB7 false) 0xC10F).map (fun t => (t.readV 1, t.rnd)) =
      some (0x07, none) := by decide

theorem test_drw_wraps_both_axes :
    (after (((start [(0, 0xFF), (1, 0xFF)]).writeI 0x300).storeBytes 0x300 [0x80, 0x01]) 0xD012).map (fun t => (t.fb.pixel 63 31, t.fb.pixel 6 0, t.fb.pixel 0 31, t.readV VF)) =
      some (true, true, false, 0) := by decide

theorem test_drw_out_of_range : faultOf (State.reset.writeI 0x1000) 0xD001 = some (.memoryOutOfBounds 0x200 (some 0xD001)) := by decide

theorem test_skp_down :
    (after ((start [(1, 0x0F)]).withInputs 0x8000 0 false) 0xE19E).map (fun t => t.pc) =
      some 0x204 := by decide

theorem test_skp_up :
    (after ((start [(2, 5)]).withInputs 0xFFDF 0 true) 0xE29E).map (fun t => t.pc) =
      some 0x202 := by decide

theorem test_sknp_down :
    (after ((start [(1, 0x0F)]).withInputs 0x8000 0 false) 0xE1A1).map (fun t => t.pc) =
      some 0x202 := by decide

theorem test_sknp_up :
    (after ((start [(1, 0)]).withInputs 0xFFFE 0 true) 0xE1A1).map (fun t => t.pc) =
      some 0x204 := by decide

theorem test_ldVxDT :
    (after (State.reset.writeDT 0x3C) 0xF407).map (fun t => (t.readV 4, t.DT)) =
      some (0x3C, 0x3C) := by decide

theorem test_ldVxK_least_key :
    (after ((start [(5, 0xAA)]).withInputs 0x0208 0 false) 0xF50A).map (fun t => (t.readV 5, t.pc)) =
      some (0x03, 0x202) := by decide

theorem test_ldVxK_waits :
    (after ((start [(5, 0xAA)]).withInputs 0 0 false) 0xF50A).map (fun t => (t.readV 5, t.pc)) =
      some (0xAA, 0x200) := by decide

theorem test_ldDTVx :
    (after (start [(3, 7)]) 0xF315).map (fun t => (t.DT, t.ST)) =
      some (7, 0) := by decide

theorem test_ldSTVx :
    (after (start [(3, 0x10)]) 0xF318).map (fun t => (t.DT, t.ST)) =
      some (0, 16) := by decide

theorem test_addI_past_memory :
    (after ((start [(2, 1)]).writeI 0xFFF) 0xF21E).map (fun t => (t.I, t.readV VF)) =
      some (0x1000, 0) := by decide

theorem test_addI_wraps :
    (after ((start [(2, 2)]).writeI 0xFFFF) 0xF21E).map (fun t => t.I) =
      some 0x0001 := by decide

theorem test_ldF_digit :
    (after (start [(5, 0x0A)]) 0xF529).map (fun t => t.I) =
      some 0x082 := by decide

theorem test_ldF_whole_byte :
    (after (start [(1, 0x1F)]) 0xF129).map (fun t => t.I) =
      some 0x0EB := by decide

theorem test_ldB_top_of_memory :
    (after ((start [(1, 255)]).writeI 0xFFD) 0xF133).map (fun t => ((List.range 3).map (fun k => t.byteAt (0xFFD + k)), t.I)) =
      some ([2, 5, 5], 0xFFD) := by decide

theorem test_ldB_out_of_range : faultOf (State.reset.writeI 0xFFE) 0xF133 = some (.memoryOutOfBounds 0x200 (some 0xF133)) := by decide

theorem test_storeRegs :
    (after ((start [(0, 0x11), (1, 0x22), (2, 0x33), (3, 0x44)]).writeI 0x400) 0xF255).map (fun t => ((List.range 4).map (fun k => t.byteAt (0x400 + k)), t.I)) =
      some ([0x11, 0x22, 0x33, 0], 0x400) := by decide

theorem test_storeRegs_out_of_range : faultOf (State.reset.writeI 0xFFE) 0xF255 = some (.memoryOutOfBounds 0x200 (some 0xF255)) := by decide

theorem test_loadRegs_font :
    (after ((start [(5, 9)]).writeI 0x055) 0xF465).map (fun t => ((List.finRange 6).map (fun r : Fin 6 => t.readV (Fin.castLE (by decide) r)), t.I)) =
      some ([0x20, 0x60, 0x20, 0x20, 0x70, 9], 0x055) := by decide

theorem test_loadRegs_out_of_range : faultOf (State.reset.writeI 0xFF1) 0xFF65 = some (.memoryOutOfBounds 0x200 (some 0xFF65)) := by decide

theorem test_unrecognized_advances :
    (after (start [(1, 7), (2, 7)]) 0x5121).map (fun t => (t.pc, t.readV 1, t.readV 2)) =
      some (0x202, 7, 7) := by decide

/-! ### Fetch, staging, tick (sections 2.6 and 2.7) -/

theorem test_fetch_last_word : (after (State.reset.jumpTo 0xFFE) 0x0000).map (fun t => t.pc) = some 0x1000 := by decide

theorem test_fetch_past_memory : step (State.reset.jumpTo 0xFFF) = .fault (.memoryOutOfBounds 0xFFF none) := rfl

theorem test_fetch_odd_pc :
    (after (State.reset.jumpTo 0x201) 0x6A05).map (fun t => (t.readV 10, t.pc)) = some (0x05, 0x203) := by decide

theorem test_tick : ((State.reset.writeDT 255).writeST 1).tickTimers = (State.reset.writeDT 254).writeST 0 := by decide

theorem test_tick_floor : State.reset.tickTimers = State.reset := by decide

theorem test_loadProgram_small :
    (State.reset.loadProgram [0x12, 0x34, 0x56]).toOption.map
      (fun t => (List.range 4).map (fun k => t.byteAt (0x200 + k))) = some [0x12, 0x34, 0x56, 0] := by decide +kernel

/-- S9 in the host's terms: construct, loadFont, loadProgram, and a poll with no key down. -/
theorem test_session_poll :
    (Session.construct.run [.loadFont, .loadProgram [0xF3, 0x0A], .step 0 0 false]).toOption.map
      (fun p => (p.1.machine.pc, p.2)) = some (0x200, [.ok, .ok, .ok]) := by decide +kernel

/-! ### Witnesses: for each obligation with hypotheses, a state and operands that meet them, at the edge of the range -/

theorem test_witness_DecodeOfEncode :
    (Instr.unrecognized 0xFFFF).wellFormed = true ∧ (Instr.jp 0xFFF).wellFormed = true := by decide

theorem test_witness_UnrecognizedWords : ∀ row ∈ opcodeTable, (0x0000 : Word) &&& row.mask ≠ row.pattern := by decide

theorem test_witness_StepRunsDecodedInstruction :
    (State.reset.jumpTo 0xFFE).pc.toNat ≤ 4094 ∧
    decodeBytes [(State.reset.jumpTo 0xFFE).byteAt 0xFFE, (State.reset.jumpTo 0xFFE).byteAt 0xFFF] =
      .ok (.unrecognized 0, []) := by decide

theorem test_witness_FetchFaultsOutsideMemory : 4094 < (State.reset.jumpTo 0xFFF).pc.toNat := by decide

/-- Every clause of `FaultsExactlyWhereListed`, and with it the premise of `FaultRecordNamesInstruction` and of
`FaultRepeats`: fetch, return, call, draw, decimal digits, store, load. -/
theorem test_witness_faults :
    step (State.reset.jumpTo 0xFFF) = .fault (.memoryOutOfBounds 0xFFF none) ∧
    faultOf State.reset 0x00EE = some (.stackUnderflow 0x200 (some 0x00EE)) ∧
    faultOf (withDepth 16 State.reset) 0x2ABC = some (.stackOverflow 0x200 (some 0x2ABC)) ∧
    faultOf (State.reset.writeI 0xFFF) 0xD002 = some (.memoryOutOfBounds 0x200 (some 0xD002)) ∧
    faultOf (State.reset.writeI 0xFFE) 0xF033 = some (.memoryOutOfBounds 0x200 (some 0xF033)) ∧
    faultOf (State.reset.writeI 0xFFF) 0xF155 = some (.memoryOutOfBounds 0x200 (some 0xF155)) ∧
    faultOf (State.reset.writeI 0xFFF) 0xF165 = some (.memoryOutOfBounds 0x200 (some 0xF165)) :=
  ⟨rfl, by decide, by decide, by decide, by decide, by decide, by decide⟩

/-- The other side of each of those edges completes. -/
theorem test_witness_no_fault_at_the_edge :
    ((after (State.reset.jumpTo 0xFFE) 0x0000).isSome && (after (withDepth 1 State.reset) 0x00EE).isSome &&
     (after (withDepth 15 State.reset) 0x2ABC).isSome && (after (State.reset.writeI 0xFFE) 0xD002).isSome &&
     (after (State.reset.writeI 0xFFFF) 0xD000).isSome && (after (State.reset.writeI 0xFFD) 0xF033).isSome &&
     (after (State.reset.writeI 0xFFE) 0xF155).isSome && (after (State.reset.writeI 0xFFE) 0xF165).isSome) = true := by
  decide

theorem test_witness_StepKeepsInvariant : MachineInv State.reset ∧ ∃ t, step State.reset = .next t :=
  ⟨⟨rfl, by decide, (by intro a ha; cases ha), by decide⟩, _, rfl⟩

/-- An invariant state at every bound: 16 return addresses, the least and the greatest among them, the greatest `pc`. -/
theorem test_witness_MachineInv_bounds :
    MachineInv ({ State.reset with stack := 4096 :: List.replicate 15 2, pc := 4350 } : State) := by
  refine ⟨rfl, by decide, ?_, by decide⟩
  intro a ha
  rcases List.mem_cons.1 ha with rfl | h
  · decide
  · rw [(List.mem_replicate.1 h).2]
    decide

theorem test_witness_EveryExecutionKeepsInvariant :
    ∃ se replies, Session.construct.run [.loadFont, .loadProgram []] = .ok (se, replies) := ⟨_, _, rfl⟩

theorem test_witness_OnlyNamedInstructionsChangeAPart :
    (∃ t, exec (.ldImm 3 7) State.reset = .next t) ∧ Part.mayChange .memory (.ldImm 3 7) = false ∧
    Part.mayChange .regs (.ldB 3) = false ∧ Part.mayChange .display (.storeRegs 3) = false := ⟨⟨_, rfl⟩, by decide⟩

theorem test_witness_OnlyNamedRegistersAreWritten :
    (∃ t, exec (.loadRegs 3) State.reset = .next t) ∧ mayWriteReg (.loadRegs 3) 4 = false ∧
    mayWriteReg (.addReg 3 4) 4 = false := ⟨⟨_, rfl⟩, by decide⟩

theorem test_witness_SoundTimerIsNeverRead :
    (∃ t, exec (.ldVxDT 0) State.reset = .next t) ∧ ∃ r, exec .ret State.reset = .fault r := ⟨⟨_, rfl⟩, _, rfl⟩

theorem test_witness_InputsReadOnlyByNamedInstructions :
    readsInputs (.ldVxDT 0) = false ∧ ∃ t, exec (.ldVxDT 0) State.reset = .next t := ⟨by decide, _, rfl⟩

theorem test_witness_ReturnPopsOrUnderflows :
    State.reset.stack = [] ∧ (withDepth 1 State.reset).stack = 0x300 :: [] := by decide

theorem test_witness_JumpGoesToAddress : (4095 : BitVec 12) = 0xFFF ∧ (4094 : BitVec 12) ≠ 0xFFF := by decide

theorem test_witness_CallPushesAndJumps : (withDepth 15 State.reset).depth < 16 := by decide

theorem test_witness_CallOnFullStackOverflows : 16 ≤ (withDepth 16 State.reset).depth := by decide

theorem test_witness_ComputedJumpAddsV0 :
    4094 < (0xFFF : BitVec 12).toNat + (State.reset.readV 0).toNat ∧
    4094 < (0xF00 : BitVec 12).toNat + ((start [(0, 0xFF)]).readV 0).toNat := by decide

theorem test_witness_SkipsOnRegisters : (1 : BitVec 4) ≠ 0 ∧ (15 : BitVec 4) ≠ 0 := by decide

theorem test_witness_ReturnUndoesCall :
    ∃ t, exec (.call 0x300) State.reset = .next t ∧ (t.writeV 3 7).stack = t.stack := ⟨_, rfl, rfl⟩

/-- The four alias cases of the flag-writing instructions are all there. -/
theorem test_witness_flag_aliases :
    ((14 : Reg) ≠ VF ∧ (0 : Reg) ≠ VF) ∧ ((14 : Reg) ≠ VF ∧ (15 : Reg) = VF) ∧ ((15 : Reg) = VF ∧ (14 : Reg) ≠ VF) := by
  decide

theorem test_witness_RandomUnderMask : (State.reset.withInputs 0 0xB7 false).rnd = some 0xB7 := by decide

theorem test_witness_DecimalDigitsToMemory :
    (State.reset.writeI 0xFFD).I.toNat + 3 ≤ 4096 ∧ 0xFFC < (State.reset.writeI 0xFFD).base ∧
    (State.reset.writeI 0xFFD).base + 3 ≤ 4096 := by decide

theorem test_witness_StoreRegisters :
    (State.reset.writeI 0xFF0).I.toNat + (15 : Reg).val + 1 ≤ 4096 ∧ (15 : Reg) ≤ 15 ∧ (0 : Reg) ≤ 15 ∧
    0xFEF < (State.reset.writeI 0xFF0).base ∧ (State.reset.writeI 0xFF0).base + (15 : Reg).val < 4096 := by decide

theorem test_witness_LoadRegisters : (State.reset.writeI 0xFFF).I.toNat + (0 : Reg).val + 1 ≤ 4096 := by decide

theorem test_witness_OutOfRangeTransfersFault :
    4096 < (State.reset.writeI 0xFFE).I.toNat + 3 ∧ 4096 < (State.reset.writeI 0xFF1).I.toNat + (15 : Reg).val + 1 ∧
    0 < (1 : BitVec 4).toNat ∧ 4096 < (State.reset.writeI 0x1000).I.toNat + (1 : BitVec 4).toNat := by decide

theorem test_witness_LoadReturnsWhatWasStored :
    ∃ t, exec (.storeRegs 2) (start [(0, 1), (1, 2), (2, 3)]) = .next t ∧ (t.writeV 1 9).I = t.I ∧
      (t.writeV 1 9).mem = t.mem := ⟨_, rfl, rfl, rfl⟩

theorem test_witness_StoreIsSeenByNextFetch :
    ∃ t, exec (.storeRegs 3) (State.reset.writeI 0x200) = .next t ∧
      t.pc.toNat = (State.reset.writeI 0x200).base + (2 : Reg).val ∧ (2 : Reg) < 3 := ⟨_, rfl, by decide, by decide⟩

theorem test_witness_DrawInvertsCoveredPixels :
    ((0 : BitVec 4).toNat = 0 ∨ (State.reset.writeI 0xFFFF).I.toNat + (0 : BitVec 4).toNat ≤ 4096) ∧
    ((15 : BitVec 4).toNat = 0 ∨ (State.reset.writeI 0xFF1).I.toNat + (15 : BitVec 4).toNat ≤ 4096) := by decide

/-- A pixel the sprite covers (the font's `0` at its own corner) and one it does not. -/
theorem test_witness_Covers :
    (State.reset.writeI 0x050).Covers 63 31 5 63 31 ∧ ¬ (State.reset.writeI 0x050).Covers 63 31 0 63 31 :=
  ⟨⟨0, 0, by decide, by decide, by decide, by decide, by decide⟩, fun ⟨_, _, h, _⟩ => absurd h (Nat.not_lt_zero _)⟩

/-- A covered pixel that is set, and a display on which no covered pixel is. -/
theorem test_witness_collision :
    (({ State.reset.writeI 0x050 with fb := Frame.blank.flip 63 31 } : State).fb.pixel 63 31 = true) ∧
    ∀ tx ty, (State.reset.writeI 0x050).fb.pixel tx ty = false :=
  ⟨by decide, fun tx ty => Frame.pixel_blank tx ty⟩

theorem test_witness_DrawingTwiceRestoresDisplay :
    (0 : Reg) ≠ VF ∧ (1 : Reg) ≠ VF ∧ ∃ t, exec (.drw 0 1 1) State.reset = .next t := ⟨by decide, by decide, _, rfl⟩

theorem test_witness_KeySkipsInsideKeyTable :
    (State.reset.readV 0).toNat ≤ 15 ∧ ((start [(1, 15)]).readV 1).toNat ≤ 15 := by decide

theorem test_witness_KeySkipsOutsideKeyTable : 15 < ((start [(1, 16)]).readV 1).toNat := by decide

theorem test_witness_WaitForKeyPolls :
    ((State.reset.withInputs 0x8000 0 false).keyLines.getLsbD (15 : Reg).val = true ∧
      ∀ j : Reg, j < 15 → (State.reset.withInputs 0x8000 0 false).keyLines.getLsbD j.val = false) ∧
    (State.reset.withInputs 0xFFFF 0 false).keyLines.getLsbD (0 : Reg).val = true ∧
    (∀ j : Reg, (State.reset.withInputs 0 0 false).keyLines.getLsbD j.val = false) ∧
    (State.reset.withInputs 0 0 false).keys ≠ none := by decide

theorem test_witness_address_ranges : (0x04F < 0x050 ∨ 0x0A0 ≤ 0x04F) ∧ (0x0A0 < 0x050 ∨ 0x0A0 ≤ 0x0A0) := by decide

theorem test_witness_LoadProgramCopiesOrRejects :
    0x200 + (List.replicate 3585 (0 : Byte)).length > 4096 ∧ 0x200 + (List.replicate 3584 (0 : Byte)).length ≤ 4096 := by
  rw [List.length_replicate, List.length_replicate]
  decide

theorem test_witness_OutOfOrderOperationsAreRefused :
    Session.construct.apply .tickTimers = .error .hostOrder ∧
    Session.apply ⟨.loadFailed, State.reset⟩ (.loadProgram []) = .error .hostOrder := ⟨rfl, rfl⟩

theorem test_witness_FaultingStepChangesNothing :
    ∃ se' r, Session.apply ⟨.running, State.reset.jumpTo 0xFFF⟩ (.step 0 0 false) = .ok (se', .runtimeFault r) :=
  ⟨_, _, rfl⟩

theorem test_witness_TerminalStatesAreFixedPoints : Terminal (State.reset.withFetchWord 16 0x1200) :=
  ⟨0x1200, 0x200, by decide, by decide, by decide⟩

end Sys2Proof.Tests
end

section
/-! PROOF. The decoder and the encoder against each other and against the opcode table (30_encoding.md R52 to R57): the
word an instruction was decoded from is its encoding, and only the default row is encoded as a word that no row of R55
accepts. O27 follows from the two. -/

namespace Sys2Proof

/-! ### The encoding of a decoded word (R52, R54) -/

theorem formatNNN_of_fields {w : Word} {f : BitVec 4} (hf : (fieldF w).toNat = f.toNat) :
    formatNNN f (fieldNNN w) = w := by
  rw [← BitVec.eq_of_toNat_eq hf, formatNNN_fields]

theorem formatXKK_of_fields {w : Word} {f : BitVec 4} {kk : Byte} (hf : (fieldF w).toNat = f.toNat)
    (hk : (fieldKK w).toNat = kk.toNat) : formatXKK f (fieldX w) kk = w := by
  rw [← BitVec.eq_of_toNat_eq hf, ← BitVec.eq_of_toNat_eq hk, formatXKK_fields]

theorem formatXYN_of_fields {w : Word} {f n : BitVec 4} (hf : (fieldF w).toNat = f.toNat)
    (hn : (fieldN w).toNat = n.toNat) : formatXYN f (fieldX w) (fieldY w) n = w := by
  rw [← BitVec.eq_of_toNat_eq hf, ← BitVec.eq_of_toNat_eq hn, formatXYN_fields]

theorem encode_decode0 (w : Word) : encode (decode0 w) = w := by
  unfold decode0
  split
  · next h => exact h.symm
  · split
    · next h => exact h.symm
    · rfl

theorem encode_decode5 {w : Word} (hf : (fieldF w).toNat = 0x5) : encode (decode5 w) = w := by
  unfold decode5
  split
  · next h => exact formatXYN_of_fields hf (congrArg BitVec.toNat h)
  · rfl

theorem encode_decode8 {w : Word} (hf : (fieldF w).toNat = 0x8) : encode (decode8 w) = w := by
  unfold decode8
  split
  case h_10 => rfl
  all_goals next h => exact formatXYN_of_fields hf h

theorem encode_decode9 {w : Word} (hf : (fieldF w).toNat = 0x9) : encode (decode9 w) = w := by
  unfold decode9
  split
  · next h => exact formatXYN_of_fields hf (congrArg BitVec.toNat h)
  · rfl

theorem encode_decodeE {w : Word} (hf : (fieldF w).toNat = 0xE) : encode (decodeE w) = w := by
  unfold decodeE
  split
  case h_3 => rfl
  all_goals next h => exact formatXKK_of_fields hf h

theorem encode_decodeF {w : Word} (hf : (fieldF w).toNat = 0xF) : encode (decodeF w) = w := by
  unfold decodeF
  split
  case h_10 => rfl
  all_goals next h => exact formatXKK_of_fields hf h

/-- Decoding loses nothing of the word: the instruction's encoding is the word it was decoded from. -/
theorem encode_decodeWord (w : Word) : encode (decodeWord w) = w := by
  unfold decodeWord
  split
  · exact encode_decode0 w
  · next h => exact formatNNN_of_fields h
  · next h => exact formatNNN_of_fields h
  · next h => exact formatXKK_of_fields h rfl
  · next h => exact formatXKK_of_fields h rfl
  · next h => exact encode_decode5 h
  · next h => exact formatXKK_of_fields h rfl
  · next h => exact formatXKK_of_fields h rfl
  · next h => exact encode_decode8 h
  · next h => exact encode_decode9 h
  · next h => exact formatNNN_of_fields h
  · next h => exact formatNNN_of_fields h
  · next h => exact formatXKK_of_fields h rfl
  · next h => exact formatXYN_of_fields h rfl
  · next h => exact encode_decodeE h
  · simp only [imp_false] at *
    exact encode_decodeF (by omega)

/-! ### The row that accepts an encoding (R55, R57) -/

/-- The per-instruction lemmas of `EncodeRow`, for every instruction at once. -/
theorem encode_accepted_by_row (i : Instr) : Laws.EncodeRow.Statement i := by
  cases i with
  | cls => exact Laws.EncodeRow.cls
  | ret => exact Laws.EncodeRow.ret
  | jp nnn => exact Laws.EncodeRow.jp nnn
  | call nnn => exact Laws.EncodeRow.call nnn
  | seImm x kk => exact Laws.EncodeRow.seImm x kk
  | sneImm x kk => exact Laws.EncodeRow.sneImm x kk
  | seReg x y => exact Laws.EncodeRow.seReg x y
  | ldImm x kk => exact Laws.EncodeRow.ldImm x kk
  | addImm x kk => exact Laws.EncodeRow.addImm x kk
  | ldReg x y => exact Laws.EncodeRow.ldReg x y
  | orReg x y => exact Laws.EncodeRow.orReg x y
  | andReg x y => exact Laws.EncodeRow.andReg x y
  | xorReg x y => exact Laws.EncodeRow.xorReg x y
  | addReg x y => exact Laws.EncodeRow.addReg x y
  | subReg x y => exact Laws.EncodeRow.subReg x y
  | shr x y => exact Laws.EncodeRow.shr x y
  | subnReg x y => exact Laws.EncodeRow.subnReg x y
  | shl x y => exact Laws.EncodeRow.shl x y
  | sneReg x y => exact Laws.EncodeRow.sneReg x y
  | ldI nnn => exact Laws.EncodeRow.ldI nnn
  | jpV0 nnn => exact Laws.EncodeRow.jpV0 nnn
  | rnd x kk => exact Laws.EncodeRow.rnd x kk
  | drw x y n => exact Laws.EncodeRow.drw x y n
  | skp x => exact Laws.EncodeRow.skp x
  | sknp x => exact Laws.EncodeRow.sknp x
  | ldVxDT x => exact Laws.EncodeRow.ldVxDT x
  | ldVxK x => exact Laws.EncodeRow.ldVxK x
  | ldDTVx x => exact Laws.EncodeRow.ldDTVx x
  | ldSTVx x => exact Laws.EncodeRow.ldSTVx x
  | addI x => exact Laws.EncodeRow.addI x
  | ldF x => exact Laws.EncodeRow.ldF x
  | ldB x => exact Laws.EncodeRow.ldB x
  | storeRegs x => exact Laws.EncodeRow.storeRegs x
  | loadRegs x => exact Laws.EncodeRow.loadRegs x
  | unrecognized w => exact Laws.EncodeRow.unrecognized w

theorem recognized_eq_false {w : Word} :
    recognized w = false ↔ ∀ row ∈ opcodeTable, w &&& row.mask ≠ row.pattern := by
  simp only [recognized, OpcodeRow.accepts, List.any_eq_false, beq_iff_eq, ne_eq]

/-- Row number 0 is the default row's alone. -/
theorem Instr.rowNumber_eq_zero {i : Instr} (h : i.rowNumber = 0) : i = .unrecognized (encode i) := by
  cases i with
  | unrecognized w => rfl
  | _ => cases h

/-- The check of `wellFormed` asks no more than that no row accepts the instruction's word. -/
theorem Instr.wellFormed_of_not_recognized {i : Instr} (h : recognized (encode i) = false) : i.wellFormed = true := by
  cases i with
  | unrecognized w => simpa [Instr.wellFormed, encode] using h
  | _ => rfl

/-- An instruction encoded as a word that no row accepts is the default row (R57). -/
theorem eq_unrecognized_of_not_recognized {i : Instr} (h : recognized (encode i) = false) :
    i = .unrecognized (encode i) := by
  obtain ⟨hzero, -⟩ | ⟨row, hmem, -, hacc⟩ := encode_accepted_by_row i (Instr.wellFormed_of_not_recognized h)
  · exact Instr.rowNumber_eq_zero hzero
  · exact absurd (beq_iff_eq.1 hacc) (recognized_eq_false.1 h row hmem)

theorem decodeWord_of_not_recognized {w : Word} (h : recognized w = false) : decodeWord w = .unrecognized w := by
  have hi := eq_unrecognized_of_not_recognized (i := decodeWord w) (by rwa [encode_decodeWord])
  rwa [encode_decodeWord] at hi

end Sys2Proof

namespace Sys2Proof.Machine

/-! ### The default row's meaning (R57, R61) -/

theorem exec_unrecognized (w : Word) (s : State) : exec (.unrecognized w) s = .next s.advance := rfl

theorem State.advance_movesOnlyPc (s : State) : MovesOnlyPc (s.pc + 2) s s.advance :=
  ⟨keepsAllBut_iff.2 (by simp), s.advance_pc⟩

/-- Settles O27: the encoding of the decoded word is the word itself, and only the default row, which advances `pc` and
does nothing else, is encoded as a word that no row accepts. -/
theorem unrecognizedWordsAreNoOps : Obligations.UnrecognizedWordsAreNoOps := by
  intro s w hrows
  exact ⟨decodeWord_of_not_recognized (recognized_eq_false.2 hrows),
    s.advance, exec_unrecognized w s, s.advance_movesOnlyPc⟩

end Sys2Proof.Machine
end

section
/-! PROOF. Control flow (40_flow.md): the return, the jump and the skips on an immediate. O19, O20 and O24. -/

namespace Sys2Proof

/-! ### The words of these instructions (R52, R54) -/

theorem decodeWord_jp (nnn : BitVec 12) : decodeWord (formatNNN 0x1 nnn) = .jp nnn := by
  simp [decodeWord]

theorem decodeWord_seImm (x : Reg) (kk : Byte) : decodeWord (formatXKK 0x3 x kk) = .seImm x kk := by
  simp [decodeWord]

theorem decodeWord_sneImm (x : Reg) (kk : Byte) : decodeWord (formatXKK 0x4 x kk) = .sneImm x kk := by
  simp [decodeWord]

end Sys2Proof

namespace Sys2Proof.Machine

/-! ### Their meanings (R70, R71, R74, R75) -/

theorem exec_ret_of_empty {s : State} (h : s.stack = []) :
    exec .ret s = .fault (.stackUnderflow s.pc (some (encode .ret))) := by
  simp only [exec, execRet, h, raiseFault_eq]

theorem exec_ret_of_cons {s : State} {a : Word} {rest : List Word} (h : s.stack = a :: rest) :
    exec .ret s = .next (State.jumpTo { s with stack := rest } a) := by
  simp only [exec, execRet, h]

theorem exec_jp (nnn : BitVec 12) (s : State) : exec (.jp nnn) s = .next (s.jumpTo (addr16 nnn)) := rfl

theorem exec_seImm (x : Reg) (kk : Byte) (s : State) :
    exec (.seImm x kk) s = .next (s.skipIf (s.readV x == kk)) := rfl

theorem exec_sneImm (x : Reg) (kk : Byte) (s : State) :
    exec (.sneImm x kk) s = .next (s.skipIf (s.readV x != kk)) := rfl

/-! ### What writing `pc` leaves unchanged (R61) -/

theorem State.jumpTo_movesOnlyPc (s : State) (target : Word) : MovesOnlyPc target s (s.jumpTo target) :=
  ⟨keepsAllBut_iff.2 (by simp), s.jumpTo_pc target⟩

/-- A skip is a jump to one of two addresses. -/
theorem State.skipIf_movesOnlyPc (s : State) (c : Bool) :
    MovesOnlyPc (if c then s.pc + 4 else s.pc + 2) s (s.skipIf c) :=
  s.jumpTo_movesOnlyPc _

/-! ### The fetch after a jump (R60, R71) -/

theorem step_of_pc_outside {s : State} (h : 4094 < s.pc.toNat) : step s = .fault (.memoryOutOfBounds s.pc none) := by
  obtain ⟨-, hstep⟩ | ⟨w, hw, -⟩ := step_eq s
  · exact hstep
  · rw [State.fetchWord_eq_none.2 h] at hw
    cases hw

/-- Of the addresses a jump can name, only the last has no second byte to fetch. -/
theorem addr16_outside_iff {nnn : BitVec 12} : 4094 < (addr16 nnn).toNat ↔ nnn = 0xFFF := by
  unfold addr16
  constructor <;> intro h <;> bv_omega

/-! ### The statements -/

/-- Settles O19, by the two shapes of the stack. -/
theorem returnPopsOrUnderflows : Obligations.ReturnPopsOrUnderflows := by
  refine ⟨by decide, fun s => ⟨fun hempty => ⟨_, exec_ret_of_empty hempty⟩, fun a rest hcons => ?_⟩⟩
  have hframe : KeepsAllBut [.pc, .stack] s (State.jumpTo { s with stack := rest } a) :=
    keepsAllBut_iff.2 (by simp [State.readV, State.byteAt])
  exact ⟨_, exec_ret_of_cons hcons, hframe, rfl, rfl⟩

/-- Settles O20: the jump writes `pc` alone, and the next fetch fails for the one address `0xFFF`. -/
theorem jumpGoesToAddress : Obligations.JumpGoesToAddress := by
  intro s nnn
  refine ⟨decodeWord_jp nnn, s.jumpTo (addr16 nnn), exec_jp nnn s, s.jumpTo_movesOnlyPc _, ?_, ?_⟩
  · rintro rfl
    exact ⟨none, step_of_pc_outside (addr16_outside_iff.2 rfl)⟩
  · intro hne hnone
    exact hne (addr16_outside_iff.1 (State.fetchWord_eq_none.1 hnone))

/-- Settles O24: both are skips, `3xkk` on `Vx = kk` and `4xkk` on its negation. -/
theorem skipsOnImmediate : Obligations.SkipsOnImmediate := by
  intro s x kk
  refine ⟨⟨decodeWord_seImm x kk, _, exec_seImm x kk s, ?_⟩, decodeWord_sneImm x kk, _, exec_sneImm x kk s, ?_⟩
  · simpa only [beq_iff_eq] using s.skipIf_movesOnlyPc (s.readV x == kk)
  · simpa only [bne_iff_ne, ne_eq, ite_not] using s.skipIf_movesOnlyPc (s.readV x != kk)

end Sys2Proof.Machine
end

section
/-! PROOF. Arithmetic and logic (41_alu.md): the immediate load and add, the moves and logic between registers, and the
add with carry. The frame of each is the frame of one register write, or of a flag write and then one register write
(R86), before the default advance. O28, O29 and O30. -/

namespace Sys2Proof

/-! ### The words of these instructions (R52, R54) -/

theorem decodeWord_ldImm (x : Reg) (kk : Byte) : decodeWord (formatXKK 0x6 x kk) = .ldImm x kk := by
  simp [decodeWord]

theorem decodeWord_addImm (x : Reg) (kk : Byte) : decodeWord (formatXKK 0x7 x kk) = .addImm x kk := by
  simp [decodeWord]

/-- Family `8` is left to the secondary decode, whatever its last digit. -/
theorem decodeWord_family8 (x y : Reg) (n : BitVec 4) :
    decodeWord (formatXYN 0x8 x y n) = decode8 (formatXYN 0x8 x y n) := by
  simp [decodeWord]

theorem decodeWord_ldReg (x y : Reg) : decodeWord (formatXYN 0x8 x y 0x0) = .ldReg x y := by
  rw [decodeWord_family8]
  simp [decode8]

theorem decodeWord_orReg (x y : Reg) : decodeWord (formatXYN 0x8 x y 0x1) = .orReg x y := by
  rw [decodeWord_family8]
  simp [decode8]

theorem decodeWord_andReg (x y : Reg) : decodeWord (formatXYN 0x8 x y 0x2) = .andReg x y := by
  rw [decodeWord_family8]
  simp [decode8]

theorem decodeWord_xorReg (x y : Reg) : decodeWord (formatXYN 0x8 x y 0x3) = .xorReg x y := by
  rw [decodeWord_family8]
  simp [decode8]

theorem decodeWord_addReg (x y : Reg) : decodeWord (formatXYN 0x8 x y 0x4) = .addReg x y := by
  rw [decodeWord_family8]
  simp [decode8]

end Sys2Proof

namespace Sys2Proof.Machine

/-! ### Their meanings (R80 to R85, R87) -/

theorem exec_ldImm (x : Reg) (kk : Byte) (s : State) : exec (.ldImm x kk) s = .next (s.writeV x kk).advance := rfl

theorem exec_addImm (x : Reg) (kk : Byte) (s : State) :
    exec (.addImm x kk) s = .next (s.writeV x (s.readV x + kk)).advance := rfl

theorem exec_ldReg (x y : Reg) (s : State) : exec (.ldReg x y) s = .next (s.writeV x (s.readV y)).advance := rfl

theorem exec_orReg (x y : Reg) (s : State) :
    exec (.orReg x y) s = .next (s.writeV x (s.readV x ||| s.readV y)).advance := rfl

theorem exec_andReg (x y : Reg) (s : State) :
    exec (.andReg x y) s = .next (s.writeV x (s.readV x &&& s.readV y)).advance := rfl

theorem exec_xorReg (x y : Reg) (s : State) :
    exec (.xorReg x y) s = .next (s.writeV x (s.readV x ^^^ s.readV y)).advance := rfl

/-- Both operands are read before the flag write. -/
theorem exec_addReg (x y : Reg) (s : State) :
    exec (.addReg x y) s =
      .next ((s.writeFlag (carry (s.readV x) (s.readV y))).writeV x (s.readV x + s.readV y)).advance := rfl

/-! ### What the register writes leave unchanged (R11, R61, R86) -/

theorem State.writeV_advance_writesOnlyReg (s : State) (x : Reg) (v : Byte) :
    WritesOnlyReg x v s (s.writeV x v).advance :=
  ⟨keepsAllBut_iff.2 (by simp), fun r => s.readV_writeV x r v, rfl⟩

/-- The flag write and then the result write, whatever the two values are. -/
theorem State.writeFlag_writeV_advance_writesOnlyRegAndFlag (s : State) (c : Bool) (x : Reg) (v : Byte) :
    WritesOnlyRegAndFlag x s ((s.writeFlag c).writeV x v).advance := by
  refine ⟨keepsAllBut_iff.2 (by simp), fun r hr => ?_, rfl⟩
  obtain ⟨hx, hflag⟩ := not_or.1 hr
  rw [State.advance_readV, State.readV_writeV_of_ne _ v hx, State.readV_writeFlag_of_ne s c hflag]

/-- The flag survives the result write exactly where it is not the destination (R86). -/
theorem State.readV_flag_writeFlag_writeV (s : State) (c : Bool) {x : Reg} (v : Byte) (hx : x ≠ VF) :
    ((s.writeFlag c).writeV x v).readV VF = boolByte c := by
  rw [State.readV_writeV_of_ne _ v hx.symm, State.readV_writeFlag_flag]

/-! ### The carry (R87) -/

theorem boolByte_carry (a b : Byte) : boolByte (carry a b) = if a.toNat + b.toNat > 255 then 1 else 0 := by
  simp only [boolByte, carry, decide_eq_true_eq]

/-! ### The statements -/

/-- Settles O28: each is one register write, of `kk` or of the byte sum. -/
theorem immediateLoadAndAdd : Obligations.ImmediateLoadAndAdd := by
  intro s x kk
  refine ⟨⟨decodeWord_ldImm x kk, _, exec_ldImm x kk s, s.writeV_advance_writesOnlyReg x _⟩,
    decodeWord_addImm x kk, _, exec_addImm x kk s, ?_⟩
  rw [← byte_add_eq]
  exact s.writeV_advance_writesOnlyReg x _

/-- Settles O29: each is one register write of a value formed from the old operands. -/
theorem moveAndLogic : Obligations.MoveAndLogic := by
  intro s x y
  exact ⟨⟨decodeWord_ldReg x y, _, exec_ldReg x y s, s.writeV_advance_writesOnlyReg x _⟩,
    ⟨decodeWord_orReg x y, _, exec_orReg x y s, s.writeV_advance_writesOnlyReg x _⟩,
    ⟨decodeWord_andReg x y, _, exec_andReg x y s, s.writeV_advance_writesOnlyReg x _⟩,
    decodeWord_xorReg x y, _, exec_xorReg x y s, s.writeV_advance_writesOnlyReg x _⟩

/-- Settles O30: the result write comes last, so `Vx` holds the sum in every alias case, and the carry stays in `VF`
unless `VF` is `Vx`. -/
theorem addWithCarry : Obligations.AddWithCarry := by
  intro s x y
  refine ⟨decodeWord_addReg x y, _, exec_addReg x y s,
    s.writeFlag_writeV_advance_writesOnlyRegAndFlag _ x _, ?_, fun hx => ?_⟩
  · rw [State.advance_readV, State.readV_writeV_same, byte_add_eq]
  · rw [State.advance_readV, State.readV_flag_writeFlag_writeV s _ _ hx, boolByte_carry]

end Sys2Proof.Machine
end

section
/-! PROOF. Index register (42_index_memory.md): the load of `I`. Its frame is that of one index write before the default
advance, whatever the value written. O36. -/

namespace Sys2Proof

theorem decodeWord_ldI (nnn : BitVec 12) : decodeWord (formatNNN 0xA nnn) = .ldI nnn := by
  simp [decodeWord]

end Sys2Proof

namespace Sys2Proof.Machine

theorem addr16_toNat (nnn : BitVec 12) : (addr16 nnn).toNat = nnn.toNat :=
  BitVec.toNat_setWidth_of_le (by decide)

theorem exec_ldI (nnn : BitVec 12) (s : State) : exec (.ldI nnn) s = .next (s.writeI (addr16 nnn)).advance := rfl

theorem State.writeI_advance_keepsAllBut (s : State) (v : Word) :
    KeepsAllBut [.index, .pc] s (s.writeI v).advance :=
  keepsAllBut_iff.2 (by simp)

/-- Settles O36: one index write and the default advance; the zero-extended `nnn` has the value of `nnn`. -/
theorem loadIndex : Obligations.LoadIndex := by
  intro s nnn
  refine ⟨decodeWord_ldI nnn, _, exec_ldI nnn s, s.writeI_advance_keepsAllBut _, ?_, rfl⟩
  rw [State.advance_I, State.writeI_I, addr16_toNat]

end Sys2Proof.Machine
end

section
/-! PROOF. The display (43_display.md): the clear. Its frame is that of one display write before the default advance,
whatever the frame written. O44. -/

namespace Sys2Proof.Machine

theorem exec_cls (s : State) : exec .cls s = .next (s.writeFb Frame.blank).advance := rfl

theorem State.writeFb_advance_keepsAllBut (s : State) (fb : Frame) :
    KeepsAllBut [.display, .pc] s (s.writeFb fb).advance :=
  keepsAllBut_iff.2 (by simp)

/-- Settles O44: one write of the blank frame, whose every pixel is 0, and the default advance. -/
theorem clearBlanksDisplay : Obligations.ClearBlanksDisplay := by
  refine ⟨by decide, fun s => ⟨_, exec_cls s, s.writeFb_advance_keepsAllBut _, rfl, fun tx ty => ?_⟩⟩
  rw [State.advance_fb, State.writeFb_fb, Frame.pixel_blank]

end Sys2Proof.Machine
end

section
/-! PROOF. The tick (60_exceptions.md): its frame is that of a write of each timer, whatever is written, and each
timer counts down by itself. O48. -/

namespace Sys2Proof.Machine

theorem State.writeDT_writeST_keepsAllBut (s : State) (d u : Byte) :
    KeepsAllBut [.delay, .sound] s ((s.writeDT d).writeST u) :=
  keepsAllBut_iff.2 (by simp)

theorem State.tickTimers_keepsAllBut (s : State) : KeepsAllBut [.delay, .sound] s s.tickTimers :=
  s.writeDT_writeST_keepsAllBut _ _

/-- Settles O48: a tick writes the two timers and no more, and each write is one less than the timer's value, floored
at 0. -/
theorem tickCountsDownToZero : Obligations.TickCountsDownToZero := by
  refine fun s => ⟨s.tickTimers_keepsAllBut, ?_, ?_⟩
  · rw [State.tickTimers_DT, toNat_tickDown]
  · rw [State.tickTimers_ST, toNat_tickDown]

end Sys2Proof.Machine
end

section
/-! PROOF. The decoder against the opcode table (30_encoding.md R52 to R58): every instruction is decoded from its own
encoding, and the words of the default row are, family by family, those that no row of R55 accepts. O2, O3, O4, O5 and
O1. -/

namespace Sys2Proof

/-! ### The words of the instructions not named above (R52, R54) -/

theorem decodeWord_cls : decodeWord 0x00E0 = .cls := by decide

theorem decodeWord_ret : decodeWord 0x00EE = .ret := by decide

theorem decodeWord_call (nnn : BitVec 12) : decodeWord (formatNNN 0x2 nnn) = .call nnn := by
  simp [decodeWord]

theorem decodeWord_jpV0 (nnn : BitVec 12) : decodeWord (formatNNN 0xB nnn) = .jpV0 nnn := by
  simp [decodeWord]

theorem decodeWord_rnd (x : Reg) (kk : Byte) : decodeWord (formatXKK 0xC x kk) = .rnd x kk := by
  simp [decodeWord]

theorem decodeWord_drw (x y : Reg) (n : BitVec 4) : decodeWord (formatXYN 0xD x y n) = .drw x y n := by
  simp [decodeWord]

theorem decodeWord_seReg (x y : Reg) : decodeWord (formatXYN 0x5 x y 0x0) = .seReg x y := by
  simp [decodeWord, decode5]

theorem decodeWord_sneReg (x y : Reg) : decodeWord (formatXYN 0x9 x y 0x0) = .sneReg x y := by
  simp [decodeWord, decode9]

theorem decodeWord_subReg (x y : Reg) : decodeWord (formatXYN 0x8 x y 0x5) = .subReg x y := by
  rw [decodeWord_family8]
  simp [decode8]

theorem decodeWord_shr (x y : Reg) : decodeWord (formatXYN 0x8 x y 0x6) = .shr x y := by
  rw [decodeWord_family8]
  simp [decode8]

theorem decodeWord_subnReg (x y : Reg) : decodeWord (formatXYN 0x8 x y 0x7) = .subnReg x y := by
  rw [decodeWord_family8]
  simp [decode8]

theorem decodeWord_shl (x y : Reg) : decodeWord (formatXYN 0x8 x y 0xE) = .shl x y := by
  rw [decodeWord_family8]
  simp [decode8]

/-- Family `E` is left to the secondary decode, whatever its low byte. -/
theorem decodeWord_familyE (x : Reg) (kk : Byte) :
    decodeWord (formatXKK 0xE x kk) = decodeE (formatXKK 0xE x kk) := by
  simp [decodeWord]

theorem decodeWord_skp (x : Reg) : decodeWord (formatXKK 0xE x 0x9E) = .skp x := by
  rw [decodeWord_familyE]
  simp [decodeE]

theorem decodeWord_sknp (x : Reg) : decodeWord (formatXKK 0xE x 0xA1) = .sknp x := by
  rw [decodeWord_familyE]
  simp [decodeE]

/-- Family `F` is left to the secondary decode, whatever its low byte. -/
theorem decodeWord_familyF (x : Reg) (kk : Byte) :
    decodeWord (formatXKK 0xF x kk) = decodeF (formatXKK 0xF x kk) := by
  simp [decodeWord]

theorem decodeWord_ldVxDT (x : Reg) : decodeWord (formatXKK 0xF x 0x07) = .ldVxDT x := by
  rw [decodeWord_familyF]
  simp [decodeF]

theorem decodeWord_ldVxK (x : Reg) : decodeWord (formatXKK 0xF x 0x0A) = .ldVxK x := by
  rw [decodeWord_familyF]
  simp [decodeF]

theorem decodeWord_ldDTVx (x : Reg) : decodeWord (formatXKK 0xF x 0x15) = .ldDTVx x := by
  rw [decodeWord_familyF]
  simp [decodeF]

theorem decodeWord_ldSTVx (x : Reg) : decodeWord (formatXKK 0xF x 0x18) = .ldSTVx x := by
  rw [decodeWord_familyF]
  simp [decodeF]

theorem decodeWord_addI (x : Reg) : decodeWord (formatXKK 0xF x 0x1E) = .addI x := by
  rw [decodeWord_familyF]
  simp [decodeF]

theorem decodeWord_ldF (x : Reg) : decodeWord (formatXKK 0xF x 0x29) = .ldF x := by
  rw [decodeWord_familyF]
  simp [decodeF]

theorem decodeWord_ldB (x : Reg) : decodeWord (formatXKK 0xF x 0x33) = .ldB x := by
  rw [decodeWord_familyF]
  simp [decodeF]

theorem decodeWord_storeRegs (x : Reg) : decodeWord (formatXKK 0xF x 0x55) = .storeRegs x := by
  rw [decodeWord_familyF]
  simp [decodeF]

theorem decodeWord_loadRegs (x : Reg) : decodeWord (formatXKK 0xF x 0x65) = .loadRegs x := by
  rw [decodeWord_familyF]
  simp [decodeF]

/-- The word of a well-formed instruction decodes to it, every operand at every value (R52, R54). -/
theorem decodeWord_encode {i : Instr} (h : i.wellFormed = true) : decodeWord (encode i) = i := by
  cases i with
  | cls => exact decodeWord_cls
  | ret => exact decodeWord_ret
  | jp nnn => exact decodeWord_jp nnn
  | call nnn => exact decodeWord_call nnn
  | seImm x kk => exact decodeWord_seImm x kk
  | sneImm x kk => exact decodeWord_sneImm x kk
  | seReg x y => exact decodeWord_seReg x y
  | ldImm x kk => exact decodeWord_ldImm x kk
  | addImm x kk => exact decodeWord_addImm x kk
  | ldReg x y => exact decodeWord_ldReg x y
  | orReg x y => exact decodeWord_orReg x y
  | andReg x y => exact decodeWord_andReg x y
  | xorReg x y => exact decodeWord_xorReg x y
  | addReg x y => exact decodeWord_addReg x y
  | subReg x y => exact decodeWord_subReg x y
  | shr x y => exact decodeWord_shr x y
  | subnReg x y => exact decodeWord_subnReg x y
  | shl x y => exact decodeWord_shl x y
  | sneReg x y => exact decodeWord_sneReg x y
  | ldI nnn => exact decodeWord_ldI nnn
  | jpV0 nnn => exact decodeWord_jpV0 nnn
  | rnd x kk => exact decodeWord_rnd x kk
  | drw x y n => exact decodeWord_drw x y n
  | skp x => exact decodeWord_skp x
  | sknp x => exact decodeWord_sknp x
  | ldVxDT x => exact decodeWord_ldVxDT x
  | ldVxK x => exact decodeWord_ldVxK x
  | ldDTVx x => exact decodeWord_ldDTVx x
  | ldSTVx x => exact decodeWord_ldSTVx x
  | addI x => exact decodeWord_addI x
  | ldF x => exact decodeWord_ldF x
  | ldB x => exact decodeWord_ldB x
  | storeRegs x => exact decodeWord_storeRegs x
  | loadRegs x => exact decodeWord_loadRegs x
  | unrecognized w => exact decodeWord_of_not_recognized (by simpa [Instr.wellFormed, encode] using h)

/-! ### The words of the default row, family by family (R58) -/

theorem decode0_eq_unrecognized {w : Word} : decode0 w = .unrecognized w ↔ w ≠ 0x00E0 ∧ w ≠ 0x00EE := by
  unfold decode0
  split
  · next h => simp [h]
  · next h0 =>
    split
    · next h => simp [h]
    · next h1 => exact iff_of_true rfl ⟨h0, h1⟩

theorem decode5_eq_unrecognized {w : Word} : decode5 w = .unrecognized w ↔ fieldN w ≠ 0 := by
  unfold decode5
  split
  · next h => simp [h]
  · next h => exact iff_of_true rfl h

theorem decode9_eq_unrecognized {w : Word} : decode9 w = .unrecognized w ↔ fieldN w ≠ 0 := by
  unfold decode9
  split
  · next h => simp [h]
  · next h => exact iff_of_true rfl h

theorem decode8_eq_unrecognized {w : Word} :
    decode8 w = .unrecognized w ↔ fieldN w ∈ [0x8, 0x9, 0xA, 0xB, 0xC, 0xD, 0xF] := by
  simp only [List.mem_cons, List.not_mem_nil, or_false, ← BitVec.toNat_inj]
  have hlt := (fieldN w).isLt
  unfold decode8
  split
  case h_10 =>
    simp only [imp_false] at *
    exact iff_of_true trivial (by bv_omega)
  all_goals next h => simp [h]

theorem decodeE_eq_unrecognized {w : Word} :
    decodeE w = .unrecognized w ↔ fieldKK w ∉ [0x9E, 0xA1] := by
  simp only [List.mem_cons, List.not_mem_nil, or_false, ← BitVec.toNat_inj]
  unfold decodeE
  split
  case h_3 => simp_all
  all_goals next h => simp [h]

theorem decodeF_eq_unrecognized {w : Word} :
    decodeF w = .unrecognized w ↔
      fieldKK w ∉ [0x07, 0x0A, 0x15, 0x18, 0x1E, 0x29, 0x33, 0x55, 0x65] := by
  simp only [List.mem_cons, List.not_mem_nil, or_false, ← BitVec.toNat_inj]
  unfold decodeF
  split
  case h_10 => simp_all
  all_goals next h => simp [h]

/-- The family nibble selects one disjunct at most, and the family's secondary decode says when it holds. -/
theorem decodeWord_eq_unrecognized {w : Word} :
    decodeWord w = .unrecognized w ↔
      (fieldF w = 0x0 ∧ w ≠ 0x00E0 ∧ w ≠ 0x00EE) ∨ (fieldF w = 0x5 ∧ fieldN w ≠ 0) ∨
      (fieldF w = 0x8 ∧ fieldN w ∈ [0x8, 0x9, 0xA, 0xB, 0xC, 0xD, 0xF]) ∨ (fieldF w = 0x9 ∧ fieldN w ≠ 0) ∨
      (fieldF w = 0xE ∧ fieldKK w ∉ [0x9E, 0xA1]) ∨
      (fieldF w = 0xF ∧ fieldKK w ∉ [0x07, 0x0A, 0x15, 0x18, 0x1E, 0x29, 0x33, 0x55, 0x65]) := by
  have hlt := (fieldF w).isLt
  simp only [← BitVec.toNat_inj (x := fieldF w)]
  unfold decodeWord
  split
  case h_1 h => simp [h, decode0_eq_unrecognized]
  case h_6 h => simp [h, decode5_eq_unrecognized]
  case h_9 h => simp [h, decode8_eq_unrecognized]
  case h_10 h => simp [h, decode9_eq_unrecognized]
  case h_15 h => simp [h, decodeE_eq_unrecognized]
  case h_16 =>
    simp only [imp_false] at *
    simp [show (fieldF w).toNat = 15 by omega, decodeF_eq_unrecognized]
  all_goals next h => simp [h]

/-! ### Acceptance by a row, field by field (R55) -/

/-- Every row compares the whole family nibble. -/
theorem fieldF_of_accepted {w : Word} {row : OpcodeRow} (hmem : row ∈ opcodeTable) (h : w &&& row.mask = row.pattern) :
    fieldF w = fieldF row.pattern := by
  have hmask : ∀ r ∈ opcodeTable, fieldF r.mask = BitVec.allOnes 4 := by decide
  rw [← h, fieldF_and, hmask row hmem, BitVec.and_allOnes]

theorem fieldN_of_accepted {w : Word} {row : OpcodeRow} (h : w &&& row.mask = row.pattern)
    (hmask : fieldN row.mask = BitVec.allOnes 4) : fieldN w = fieldN row.pattern := by
  rw [← h, fieldN_and, hmask, BitVec.and_allOnes]

theorem fieldKK_of_accepted {w : Word} {row : OpcodeRow} (h : w &&& row.mask = row.pattern)
    (hmask : fieldKK row.mask = BitVec.allOnes 8) : fieldKK w = fieldKK row.pattern := by
  rw [← h, fieldKK_and, hmask, BitVec.and_allOnes]

/-- No row accepts a word of the default row: in each of its families the rows compare the digits that the default row
leaves over. -/
theorem not_accepted_of_unrecognized {w : Word} (h : decodeWord w = .unrecognized w) :
    ∀ row ∈ opcodeTable, w &&& row.mask ≠ row.pattern := by
  intro row hmem hacc
  have hf := fieldF_of_accepted hmem hacc
  rcases decodeWord_eq_unrecognized.1 h with ⟨h0, hcls, hret⟩ | ⟨h5, hn⟩ | ⟨h8, hn⟩ | ⟨h9, hn⟩ | ⟨hE, hk⟩ | ⟨hF, hk⟩
  · have hrow : ∀ r ∈ opcodeTable, fieldF r.pattern = 0x0 →
        r.mask = BitVec.allOnes 16 ∧ (r.pattern = 0x00E0 ∨ r.pattern = 0x00EE) := by decide
    obtain ⟨hmask, hpat⟩ := hrow row hmem (hf ▸ h0)
    rw [hmask, BitVec.and_allOnes] at hacc
    exact hpat.elim (hacc ▸ hcls) (hacc ▸ hret)
  · have hrow : ∀ r ∈ opcodeTable, fieldF r.pattern = 0x5 →
        fieldN r.mask = BitVec.allOnes 4 ∧ fieldN r.pattern = 0 := by decide
    obtain ⟨hmask, hpat⟩ := hrow row hmem (hf ▸ h5)
    exact hn (fieldN_of_accepted hacc hmask ▸ hpat)
  · have hrow : ∀ r ∈ opcodeTable, fieldF r.pattern = 0x8 →
        fieldN r.mask = BitVec.allOnes 4 ∧ fieldN r.pattern ∉ [0x8, 0x9, 0xA, 0xB, 0xC, 0xD, 0xF] := by decide
    obtain ⟨hmask, hpat⟩ := hrow row hmem (hf ▸ h8)
    exact hpat (fieldN_of_accepted hacc hmask ▸ hn)
  · have hrow : ∀ r ∈ opcodeTable, fieldF r.pattern = 0x9 →
        fieldN r.mask = BitVec.allOnes 4 ∧ fieldN r.pattern = 0 := by decide
    obtain ⟨hmask, hpat⟩ := hrow row hmem (hf ▸ h9)
    exact hn (fieldN_of_accepted hacc hmask ▸ hpat)
  · have hrow : ∀ r ∈ opcodeTable, fieldF r.pattern = 0xE →
        fieldKK r.mask = BitVec.allOnes 8 ∧ fieldKK r.pattern ∈ [0x9E, 0xA1] := by decide
    obtain ⟨hmask, hpat⟩ := hrow row hmem (hf ▸ hE)
    exact hk (fieldKK_of_accepted hacc hmask ▸ hpat)
  · have hrow : ∀ r ∈ opcodeTable, fieldF r.pattern = 0xF →
        fieldKK r.mask = BitVec.allOnes 8 ∧
          fieldKK r.pattern ∈ [0x07, 0x0A, 0x15, 0x18, 0x1E, 0x29, 0x33, 0x55, 0x65] := by decide
    obtain ⟨hmask, hpat⟩ := hrow row hmem (hf ▸ hF)
    exact hk (fieldKK_of_accepted hacc hmask ▸ hpat)

/-! ### The row of a decoded word (R55, R57) -/

/-- Two rows that agree on the digits both compare are one row. -/
theorem opcodeTable_disjoint : ∀ a ∈ opcodeTable, ∀ b ∈ opcodeTable,
    a.pattern &&& b.mask = b.pattern &&& a.mask → a = b := by decide

theorem eq_of_accepted {w : Word} {a b : OpcodeRow} (ha : a ∈ opcodeTable) (hb : b ∈ opcodeTable)
    (hwa : w &&& a.mask = a.pattern) (hwb : w &&& b.mask = b.pattern) : a = b := by
  apply opcodeTable_disjoint a ha b hb
  rw [← hwa, ← hwb, BitVec.and_assoc, BitVec.and_assoc, BitVec.and_comm a.mask]

theorem opcodeTable_number_inj : ∀ a ∈ opcodeTable, ∀ b ∈ opcodeTable, a.number = b.number → a = b := by decide

theorem Instr.wellFormed_of_rowNumber_ne_zero {i : Instr} (h : i.rowNumber ≠ 0) : i.wellFormed = true := by
  cases i with
  | unrecognized w => exact absurd rfl h
  | _ => rfl

theorem wellFormed_decodeWord (w : Word) : (decodeWord w).wellFormed = true := by
  by_cases hzero : (decodeWord w).rowNumber = 0
  · have hw := Instr.rowNumber_eq_zero hzero
    rw [encode_decodeWord] at hw
    apply Instr.wellFormed_of_not_recognized
    rw [encode_decodeWord, recognized_eq_false]
    exact not_accepted_of_unrecognized hw
  · exact Instr.wellFormed_of_rowNumber_ne_zero hzero

/-- A decoded word belongs to the default row and no row accepts it, or its own row accepts it. -/
theorem decodeWord_row (w : Word) :
    (decodeWord w).rowNumber = 0 ∧ (∀ row ∈ opcodeTable, w &&& row.mask ≠ row.pattern) ∨
    ∃ row ∈ opcodeTable, row.number = (decodeWord w).rowNumber ∧ w &&& row.mask = row.pattern := by
  have h := encode_accepted_by_row (decodeWord w) (wellFormed_decodeWord w)
  simpa only [encode_decodeWord, recognized_eq_false, OpcodeRow.accepts, beq_iff_eq] using h

theorem accepted_iff_rowNumber {w : Word} {row : OpcodeRow} (hmem : row ∈ opcodeTable) :
    w &&& row.mask = row.pattern ↔ (decodeWord w).rowNumber = row.number := by
  have hpos : ∀ r ∈ opcodeTable, r.number ≠ 0 := by decide
  rcases decodeWord_row w with ⟨hzero, hnone⟩ | ⟨own, hown, hnum, hacc⟩
  · exact iff_of_false (hnone row hmem) (fun h => hpos row hmem (h ▸ hzero))
  · constructor
    · intro h
      rw [eq_of_accepted hmem hown h hacc, hnum]
    · intro h
      rw [opcodeTable_number_inj row hmem own hown (h ▸ hnum.symm)]
      exact hacc

/-! ### The statements -/

/-- Settles O2: each instruction is decoded from its own format and digits, and the two bytes of a word combine to it
again, whatever follows them. -/
theorem decodeOfEncode : Obligations.DecodeOfEncode := by
  intro i hwf
  refine ⟨decodeWord_encode hwf, fun rest => ?_⟩
  rw [encodeBytes, decodeBytes_bytesOfWord, decodeWord_encode hwf]

/-- Settles O3: decoding loses nothing of the word, and a word of the default row is one that no row accepts. -/
theorem encodeOfDecode : Obligations.EncodeOfDecode :=
  fun w => ⟨wellFormed_decodeWord w, encode_decodeWord w⟩

/-- Settles O4: the rows are disjoint and have different numbers, so the one that accepts the word is the decoded
instruction's own. -/
theorem decodeFollowsOpcodeTable : Obligations.DecodeFollowsOpcodeTable :=
  fun _ => ⟨fun _ hmem => accepted_iff_rowNumber hmem,
    fun hnone => decodeWord_of_not_recognized (recognized_eq_false.2 hnone), not_accepted_of_unrecognized⟩

/-- Settles O5, by the secondary decode of each family. -/
theorem unrecognizedWordsByFamily : Obligations.UnrecognizedWordsByFamily :=
  fun _ => decodeWord_eq_unrecognized

/-- Settles O1: ten closed words, each evaluated. -/
theorem specWordsDecode : Obligations.SpecWordsDecode := by
  unfold Obligations.SpecWordsDecode
  decide

end Sys2Proof
end

section
/-! SUPPORT. One rule for each instruction's meaning that the sections above do not give (30_encoding.md R61), and for
the six that can fault, both directions: when they answer a next state and which, when they fault and with which
record. -/

namespace Sys2Proof.Machine

/-! ### Instructions that always complete -/

theorem exec_jpV0 (nnn : BitVec 12) (s : State) :
    exec (.jpV0 nnn) s = .next (s.jumpTo (addr16 nnn + byte16 (s.readV V0))) := rfl

theorem exec_seReg (x y : Reg) (s : State) :
    exec (.seReg x y) s = .next (s.skipIf (s.readV x == s.readV y)) := rfl

theorem exec_sneReg (x y : Reg) (s : State) :
    exec (.sneReg x y) s = .next (s.skipIf (s.readV x != s.readV y)) := rfl

/-- The flag write, the result formed from the registers after it, and the advance (R86). -/
def State.flagThenResult (s : State) (c : Bool) (x y : Reg) (op : Byte → Byte → Byte) : State :=
  ((s.writeFlag c).writeV x (op ((s.writeFlag c).readV x) ((s.writeFlag c).readV y))).advance

theorem exec_subReg (x y : Reg) (s : State) :
    exec (.subReg x y) s = .next (s.flagThenResult (greater (s.readV x) (s.readV y)) x y (fun a b => a - b)) := rfl

theorem exec_shr (x y : Reg) (s : State) :
    exec (.shr x y) s = .next (s.flagThenResult (lowBit (s.readV x)) x y (fun a _ => a >>> 1)) := rfl

theorem exec_subnReg (x y : Reg) (s : State) :
    exec (.subnReg x y) s = .next (s.flagThenResult (greater (s.readV y) (s.readV x)) x y (fun a b => b - a)) := rfl

theorem exec_shl (x y : Reg) (s : State) :
    exec (.shl x y) s = .next (s.flagThenResult (highBit (s.readV x)) x y (fun a _ => a <<< 1)) := rfl

theorem exec_rnd (x : Reg) (kk : Byte) (s : State) :
    exec (.rnd x kk) s = .next (s.usedRandom.writeV x (s.randomByte &&& kk)).advance := rfl

theorem exec_skp (x : Reg) (s : State) :
    exec (.skp x) s = .next ((s.afterKeyQuery (s.readV x)).skipIf (s.keyDown (s.readV x))) := rfl

theorem exec_sknp (x : Reg) (s : State) :
    exec (.sknp x) s = .next ((s.afterKeyQuery (s.readV x)).skipIf (!s.keyDown (s.readV x))) := rfl

theorem exec_ldVxDT (x : Reg) (s : State) : exec (.ldVxDT x) s = .next (s.writeV x s.DT).advance := rfl

theorem exec_ldVxK (x : Reg) (s : State) : exec (.ldVxK x) s = .next (s.pollKey x) := rfl

theorem exec_ldDTVx (x : Reg) (s : State) : exec (.ldDTVx x) s = .next (s.writeDT (s.readV x)).advance := rfl

theorem exec_ldSTVx (x : Reg) (s : State) : exec (.ldSTVx x) s = .next (s.writeST (s.readV x)).advance := rfl

theorem exec_addI (x : Reg) (s : State) :
    exec (.addI x) s = .next (s.writeI (s.I + byte16 (s.readV x))).advance := rfl

theorem exec_ldF (x : Reg) (s : State) :
    exec (.ldF x) s = .next (s.writeI (glyphAddress (s.readV x))).advance := rfl

/-! ### Instructions that can fault (R70, R72, R103 to R105, R111) -/

/-- The display, the flag and the advance of a draw that passed its range check (R111). -/
def State.drawn (s : State) (x y : Reg) (n : BitVec 4) : State :=
  ((s.writeFb (s.drawSprite (s.readV x).toNat (s.readV y).toNat n.toNat).fb).writeFlag
    (s.drawSprite (s.readV x).toNat (s.readV y).toNat n.toNat).collision).advance

theorem exec_call (nnn : BitVec 12) (s : State) :
    exec (.call nnn) s =
      if !s.stackFull then .next ((s.push (s.pc + 2)).jumpTo (addr16 nnn))
      else .fault (.stackOverflow s.pc (some (encode (.call nnn)))) := by
  simp only [exec, execCall, raiseFault_eq]
  cases s.stackFull <;> rfl

theorem exec_drw (x y : Reg) (n : BitVec 4) (s : State) :
    exec (.drw x y n) s =
      if inRange s.base n.toNat then .next (s.drawn x y n)
      else .fault (.memoryOutOfBounds s.pc (some (encode (.drw x y n)))) := rfl

theorem exec_ldB (x : Reg) (s : State) :
    exec (.ldB x) s =
      if inRange s.base 3 then .next (s.storeBytes s.base (decimalDigits (s.readV x))).advance
      else .fault (.memoryOutOfBounds s.pc (some (encode (.ldB x)))) := rfl

theorem exec_storeRegs (x : Reg) (s : State) :
    exec (.storeRegs x) s =
      if inRange s.base (x.val + 1) then .next (s.storeBytes s.base (s.blockValues x)).advance
      else .fault (.memoryOutOfBounds s.pc (some (encode (.storeRegs x)))) := rfl

theorem exec_loadRegs (x : Reg) (s : State) :
    exec (.loadRegs x) s =
      if inRange s.base (x.val + 1) then .next (s.loadBlock x).advance
      else .fault (.memoryOutOfBounds s.pc (some (encode (.loadRegs x)))) := rfl

/-! A choice between a next state and a fault, read backwards. -/

section
variable {c : Bool} {u t : State} {r r' : Fault}

theorem ite_eq_next :
    (if c then .next u else .fault r : Host.Outcome State Fault Refusal) = .next t ↔ c = true ∧ t = u := by
  cases c <;> simp [eq_comm]

theorem ite_eq_fault :
    (if c then .next u else .fault r : Host.Outcome State Fault Refusal) = .fault r' ↔ c = false ∧ r' = r := by
  cases c <;> simp [eq_comm]

theorem ite_ne_refused (q : Refusal) :
    (if c then .next u else .fault r : Host.Outcome State Fault Refusal) ≠ .refused q := by
  cases c <;> nofun

end

theorem State.stackFull_eq_false {s : State} : s.stackFull = false ↔ s.depth < 16 := by
  rw [← Bool.not_eq_true, State.stackFull_iff, not_le]

theorem exec_ret_next {s t : State} :
    exec .ret s = .next t ↔ ∃ a rest, s.stack = a :: rest ∧ t = State.jumpTo { s with stack := rest } a := by
  cases hs : s.stack with
  | nil => simp [exec_ret_of_empty hs]
  | cons a rest => simp [exec_ret_of_cons hs, eq_comm]

theorem exec_call_next {nnn : BitVec 12} {s t : State} :
    exec (.call nnn) s = .next t ↔ s.depth < 16 ∧ t = (s.push (s.pc + 2)).jumpTo (addr16 nnn) := by
  rw [exec_call, ite_eq_next, Bool.not_eq_true', State.stackFull_eq_false]

theorem exec_drw_next {x y : Reg} {n : BitVec 4} {s t : State} :
    exec (.drw x y n) s = .next t ↔ inRange s.base n.toNat = true ∧ t = s.drawn x y n := by
  rw [exec_drw, ite_eq_next]

theorem exec_ldB_next {x : Reg} {s t : State} :
    exec (.ldB x) s = .next t ↔
      inRange s.base 3 = true ∧ t = (s.storeBytes s.base (decimalDigits (s.readV x))).advance := by
  rw [exec_ldB, ite_eq_next]

theorem exec_storeRegs_next {x : Reg} {s t : State} :
    exec (.storeRegs x) s = .next t ↔
      inRange s.base (x.val + 1) = true ∧ t = (s.storeBytes s.base (s.blockValues x)).advance := by
  rw [exec_storeRegs, ite_eq_next]

theorem exec_loadRegs_next {x : Reg} {s t : State} :
    exec (.loadRegs x) s = .next t ↔ inRange s.base (x.val + 1) = true ∧ t = (s.loadBlock x).advance := by
  rw [exec_loadRegs, ite_eq_next]

/-- The range check of a transfer, on the unbounded sum (R37). -/
theorem State.inRange_base {s : State} {len : Nat} (h : len ≠ 0) :
    inRange s.base len = true ↔ s.I.toNat + len ≤ 4096 := by
  rw [inRange_iff, State.base_eq, or_iff_right h]

end Sys2Proof.Machine
end

section
/-! PROOF. The faults of a step (60_exceptions.md R130 to R137) and the fetch (30_encoding.md R60): one predicate lists
the conditions with their records, an instruction faults exactly where it holds, and none is refused. O6 to O11, O22
and O41. -/

namespace Sys2Proof.Machine

/-- The instruction raises `r` in the state: the conditions of R130, each with its record (R134). -/
def Raises (s : State) (r : Fault) : Instr → Prop
  | .ret => s.depth = 0 ∧ r = .stackUnderflow s.pc (some (encode .ret))
  | .call nnn => 16 ≤ s.depth ∧ r = .stackOverflow s.pc (some (encode (.call nnn)))
  | .drw x y n =>
    (0 < n.toNat ∧ 4096 < s.I.toNat + n.toNat) ∧ r = .memoryOutOfBounds s.pc (some (encode (.drw x y n)))
  | .ldB x => 4096 < s.I.toNat + 3 ∧ r = .memoryOutOfBounds s.pc (some (encode (.ldB x)))
  | .storeRegs x => 4096 < s.I.toNat + x.val + 1 ∧ r = .memoryOutOfBounds s.pc (some (encode (.storeRegs x)))
  | .loadRegs x => 4096 < s.I.toNat + x.val + 1 ∧ r = .memoryOutOfBounds s.pc (some (encode (.loadRegs x)))
  | _ => False

theorem State.depth_eq_zero {s : State} : s.depth = 0 ↔ s.stack = [] := List.length_eq_zero_iff

theorem State.inRange_base_eq_false {s : State} {len : Nat} (h : 0 < len) :
    inRange s.base len = false ↔ 4096 < s.I.toNat + len := by
  rw [inRange_eq_false, State.base_eq, and_iff_right h]

/-- An instruction faults exactly where it is listed to, with the record listed. -/
theorem exec_eq_fault {i : Instr} {s : State} {r : Fault} : exec i s = .fault r ↔ Raises s r i := by
  cases i with
  | ret =>
    unfold Raises
    rw [State.depth_eq_zero]
    cases hs : s.stack with
    | nil => simp [exec_ret_of_empty hs, eq_comm]
    | cons a rest => simp [exec_ret_of_cons hs]
  | call nnn => rw [exec_call, ite_eq_fault, Bool.not_eq_false', State.stackFull_iff, Raises]
  | drw x y n => rw [exec_drw, ite_eq_fault, inRange_eq_false, State.base_eq, Raises]
  | ldB x => rw [exec_ldB, ite_eq_fault, State.inRange_base_eq_false (by decide), Raises]
  | storeRegs x =>
    rw [exec_storeRegs, ite_eq_fault, State.inRange_base_eq_false (Nat.succ_pos _), Raises, Nat.add_assoc]
  | loadRegs x =>
    rw [exec_loadRegs, ite_eq_fault, State.inRange_base_eq_false (Nat.succ_pos _), Raises, Nat.add_assoc]
  | _ => exact iff_of_false nofun id

theorem exec_ne_refused (i : Instr) (s : State) (q : Refusal) : exec i s ≠ .refused q := by
  cases i with
  | ret =>
    cases hs : s.stack with
    | nil => rw [exec_ret_of_empty hs]; nofun
    | cons a rest => rw [exec_ret_of_cons hs]; nofun
  | call nnn => exact exec_call nnn s ▸ ite_ne_refused q
  | drw x y n => exact exec_drw x y n s ▸ ite_ne_refused q
  | ldB x => exact exec_ldB x s ▸ ite_ne_refused q
  | storeRegs x => exact exec_storeRegs x s ▸ ite_ne_refused q
  | loadRegs x => exact exec_loadRegs x s ▸ ite_ne_refused q
  | _ => nofun

/-! ### What the list says of a record -/

theorem Raises.record {i : Instr} {s : State} {r : Fault} (h : Raises s r i) :
    r.faultPc = s.pc ∧ r.faultOpcode = some (encode i) := by
  cases i with
  | ret | call | drw | ldB | storeRegs | loadRegs =>
    obtain ⟨-, rfl⟩ := h
    exact ⟨rfl, rfl⟩
  | _ => exact h.elim

/-- A fault depends on no input and no timer. -/
theorem raises_withEnvironment {i : Instr} {s : State} {r : Fault} {keys : Option (BitVec 16)} {rnd : Option Byte}
    {keyAnswer : Option Bool} {draws : Nat} {dt st : Byte} :
    Raises (s.withEnvironment keys rnd keyAnswer draws dt st) r i ↔ Raises s r i := by
  cases i <;> rfl

/-- The list as one disjunction, for an instruction with the word it was decoded from. -/
theorem raises_decodeWord {w : Word} {s : State} {r : Fault} :
    Raises s r (decodeWord w) ↔
      (decodeWord w = .ret ∧ s.depth = 0 ∧ r = .stackUnderflow s.pc (some w)) ∨
      (∃ nnn, decodeWord w = .call nnn ∧ 16 ≤ s.depth ∧ r = .stackOverflow s.pc (some w)) ∨
      (∃ x y n, decodeWord w = .drw x y n ∧ 0 < n.toNat ∧ 4096 < s.I.toNat + n.toNat ∧
        r = .memoryOutOfBounds s.pc (some w)) ∨
      (∃ x, decodeWord w = .ldB x ∧ 4096 < s.I.toNat + 3 ∧ r = .memoryOutOfBounds s.pc (some w)) ∨
      (∃ x, (decodeWord w = .storeRegs x ∨ decodeWord w = .loadRegs x) ∧ 4096 < s.I.toNat + x.val + 1 ∧
        r = .memoryOutOfBounds s.pc (some w)) := by
  have hw := encode_decodeWord w
  revert hw
  generalize decodeWord w = i
  rintro rfl
  cases i <;> simp [Raises, and_assoc]

theorem step_of_fetchWord {s : State} {w : Word} (h : s.fetchWord = some w) : step s = exec (decodeWord w) s := by
  obtain ⟨hnone, -⟩ | ⟨w', hw', hstep⟩ := step_eq s
  · cases h.symm.trans hnone
  · obtain rfl := Option.some.inj (h.symm.trans hw')
    exact hstep

/-! ### The statements -/

/-- Settles O6: with `pc` inside memory the fetch reads the word of the two bytes, and the step runs what it decodes
to. -/
theorem stepRunsDecodedInstruction : Obligations.StepRunsDecodedInstruction := by
  intro s i hpc hdec
  have hfetch := State.fetchWord_eq_some.2 ⟨hpc, rfl⟩
  have hi : decodeWord (wordOfBytes (s.byteAt s.pc.toNat) (s.byteAt (s.pc.toNat + 1))) = i := by
    simpa [decodeBytes] using hdec
  refine ⟨?_, _, hfetch, toNat_wordOfBytes _ _⟩
  rw [step_of_fetchWord hfetch, hi]

/-- Settles O7: the fetch reads nothing above 4094. -/
theorem fetchFaultsOutsideMemory : Obligations.FetchFaultsOutsideMemory :=
  fun _ => step_of_pc_outside

/-- Settles O8: a fetch that faults has no word, and an instruction's record carries its encoding, which is the word it
was decoded from. -/
theorem faultRecordNamesInstruction : Obligations.FaultRecordNamesInstruction := by
  intro s r h
  obtain ⟨hnone, hstep⟩ | ⟨w, hw, hstep⟩ := step_eq s
  · obtain rfl := Host.Outcome.fault.inj (hstep.symm.trans h)
    exact ⟨rfl, hnone.symm⟩
  · have hrec := (exec_eq_fault.1 (hstep.symm.trans h)).record
    rwa [encode_decodeWord, ← hw] at hrec

/-- Settles O9: the fetch faults or it reads a word, and then the list of the decoded instruction decides. -/
theorem faultsExactlyWhereListed : Obligations.FaultsExactlyWhereListed := by
  intro s r
  obtain ⟨hnone, hstep⟩ | ⟨w, hw, hstep⟩ := step_eq s
  · have hpc := State.fetchWord_eq_none.1 hnone
    simp [hstep, hnone, hpc, eq_comm]
  · have hpc := (State.fetchWord_eq_some.1 hw).1
    simp only [hstep, hw, exec_eq_fault, raises_decodeWord, Nat.not_lt.2 hpc, false_and, false_or, Option.some.injEq,
      exists_eq_left']

/-- Settles O10: a fetch answers a fault, and no instruction is refused. -/
theorem stepNeverRefuses : Obligations.StepNeverRefuses := by
  intro s q h
  obtain ⟨-, hstep⟩ | ⟨w, -, hstep⟩ := step_eq s
  · cases hstep.symm.trans h
  · exact exec_ne_refused _ s q (hstep.symm.trans h)

/-- Settles O11: neither the fetch nor the list of faults looks at an input or a timer. -/
theorem faultRepeats : Obligations.FaultRepeats := by
  intro s r keys rnd keyAnswer draws dt st h
  have hfetch : (s.withEnvironment keys rnd keyAnswer draws dt st).fetchWord = s.fetchWord :=
    State.fetchWord_congr rfl rfl
  obtain ⟨hnone, hstep⟩ | ⟨w, hw, hstep⟩ := step_eq s
  · rw [← h, hstep]
    exact step_of_pc_outside (State.fetchWord_eq_none.1 (hfetch.trans hnone))
  · rw [step_of_fetchWord (hfetch.trans hw), exec_eq_fault, raises_withEnvironment, ← exec_eq_fault, ← hstep, h]

/-- Settles O22: the entry of the call in the list of faults. -/
theorem callOnFullStackOverflows : Obligations.CallOnFullStackOverflows :=
  fun _ nnn hfull => exec_eq_fault (i := .call nnn).2 ⟨hfull, rfl⟩

/-- Settles O41: the four entries of the list with the word written out. -/
theorem outOfRangeTransfersFault : Obligations.OutOfRangeTransfersFault :=
  fun _ x y n => ⟨fun h => exec_eq_fault (i := .ldB x).2 ⟨h, rfl⟩,
    fun h => ⟨exec_eq_fault (i := .storeRegs x).2 ⟨h, rfl⟩, exec_eq_fault (i := .loadRegs x).2 ⟨h, rfl⟩⟩,
    fun hn h => exec_eq_fault (i := .drw x y n).2 ⟨⟨hn, h⟩, rfl⟩⟩

end Sys2Proof.Machine
end

section
/-! PROOF. Whole-machine rules (10_state.md): the frame of every state update an instruction ends with, the frame of
every instruction from them, and the independence from the sound timer and from the inputs. O15 to O18. -/

namespace Sys2Proof.Machine

/-! ### What each update leaves unchanged, the default advance included (R61) -/

theorem State.storeBytes_advance_keepsAllBut (s : State) (a : Nat) (vs : List Byte) :
    KeepsAllBut [.memory, .pc] s (s.storeBytes a vs).advance :=
  keepsAllBut_iff.2 (by simp)

theorem State.loadBlock_advance_keepsAllBut (s : State) (x : Reg) :
    KeepsAllBut [.regs, .pc] s (s.loadBlock x).advance :=
  keepsAllBut_iff.2 (by simp)

theorem State.writeDT_advance_keepsAllBut (s : State) (v : Byte) : KeepsAllBut [.delay, .pc] s (s.writeDT v).advance :=
  keepsAllBut_iff.2 (by simp)

theorem keepsAllBut_refl (ps : List Part) (s : State) : KeepsAllBut ps s s :=
  keepsAllBut_iff.2 (by simp)

theorem State.writeST_keepsAllBut (s : State) (v : Byte) : KeepsAllBut [.sound] s (s.writeST v) :=
  keepsAllBut_iff.2 (by simp)

theorem State.writeST_advance_keepsAllBut (s : State) (v : Byte) : KeepsAllBut [.sound, .pc] s (s.writeST v).advance :=
  keepsAllBut_iff.2 (by simp)

theorem State.push_jumpTo_keepsAllBut (s : State) (v target : Word) :
    KeepsAllBut [.pc, .stack] s ((s.push v).jumpTo target) :=
  keepsAllBut_iff.2 (by simp)

theorem State.pop_jumpTo_keepsAllBut (s : State) (rest : List Word) (a : Word) :
    KeepsAllBut [.pc, .stack] s (State.jumpTo { s with stack := rest } a) :=
  keepsAllBut_iff.2 (by simp [State.readV, State.byteAt])

theorem State.usedRandom_writeV_advance_keepsAllBut (s : State) (x : Reg) (v : Byte) :
    KeepsAllBut [.regs, .pc, .inputs] s (s.usedRandom.writeV x v).advance :=
  keepsAllBut_iff.2 (by simp)

theorem State.afterKeyQuery_skipIf_keepsAllBut (s : State) (v : Byte) (c : Bool) :
    KeepsAllBut [.pc, .inputs] s ((s.afterKeyQuery v).skipIf c) :=
  keepsAllBut_iff.2 (by simp)

theorem State.pollKey_of_some {s : State} {k : Reg} (x : Reg) (h : s.firstKeyDown = some k) :
    s.pollKey x = (s.usedKeys.writeV x (BitVec.ofNat 8 k.val)).advance := by
  simp only [State.pollKey, h]

theorem State.pollKey_of_none {s : State} (x : Reg) (h : s.firstKeyDown = none) : s.pollKey x = s.usedKeys := by
  simp only [State.pollKey, h]

theorem State.usedKeys_writeV_advance_keepsAllBut (s : State) (x : Reg) (v : Byte) :
    KeepsAllBut [.regs, .pc, .inputs] s (s.usedKeys.writeV x v).advance :=
  keepsAllBut_iff.2 (by simp)

theorem State.usedKeys_keepsAllBut (s : State) : KeepsAllBut [.inputs] s s.usedKeys :=
  keepsAllBut_iff.2 (by simp)

/-- A poll that finds no key changes less than one that finds one. -/
theorem State.pollKey_keepsAllBut (s : State) (x : Reg) : KeepsAllBut [.regs, .pc, .inputs] s (s.pollKey x) := by
  cases h : s.firstKeyDown with
  | some k => exact s.pollKey_of_some x h ▸ s.usedKeys_writeV_advance_keepsAllBut x _
  | none => exact s.pollKey_of_none x h ▸ fun p hp => s.usedKeys_keepsAllBut p (by simp_all)

theorem State.drawn_keepsAllBut (s : State) (x y : Reg) (n : BitVec 4) :
    KeepsAllBut [.regs, .display, .pc] s (s.drawn x y n) :=
  keepsAllBut_iff.2 (by simp [State.drawn])

/-! ### The frame of every instruction -/

/-- What an instruction leaves unchanged is all but parts the spec names it for. -/
theorem exec_keepsAllBut {i : Instr} {s t : State} (h : exec i s = .next t) :
    ∃ ps, KeepsAllBut ps s t ∧ ∀ p ∈ ps, p.mayChange i = true := by
  cases i with
  | cls => cases h; exact ⟨_, s.writeFb_advance_keepsAllBut _, by simp [Part.mayChange]⟩
  | ret =>
    obtain ⟨a, rest, -, rfl⟩ := exec_ret_next.1 h
    exact ⟨_, s.pop_jumpTo_keepsAllBut rest a, by simp [Part.mayChange]⟩
  | call nnn =>
    obtain ⟨-, rfl⟩ := exec_call_next.1 h
    exact ⟨_, s.push_jumpTo_keepsAllBut _ _, by simp [Part.mayChange]⟩
  | jp | jpV0 => cases h; exact ⟨_, (s.jumpTo_movesOnlyPc _).1, by simp [Part.mayChange]⟩
  | seImm | sneImm | seReg | sneReg => cases h; exact ⟨_, (s.skipIf_movesOnlyPc _).1, by simp [Part.mayChange]⟩
  | ldImm x | addImm x | ldReg x | orReg x | andReg x | xorReg x | ldVxDT x =>
    cases h
    exact ⟨_, (s.writeV_advance_writesOnlyReg x _).1, by simp [Part.mayChange]⟩
  | addReg x | subReg x | shr x | subnReg x | shl x =>
    cases h
    exact ⟨_, (s.writeFlag_writeV_advance_writesOnlyRegAndFlag _ x _).1, by simp [Part.mayChange]⟩
  | ldI | addI | ldF => cases h; exact ⟨_, s.writeI_advance_keepsAllBut _, by simp [Part.mayChange]⟩
  | rnd x => cases h; exact ⟨_, s.usedRandom_writeV_advance_keepsAllBut x _, by simp [Part.mayChange]⟩
  | drw x y n =>
    obtain ⟨-, rfl⟩ := exec_drw_next.1 h
    exact ⟨_, s.drawn_keepsAllBut x y n, by simp [Part.mayChange]⟩
  | skp | sknp => cases h; exact ⟨_, s.afterKeyQuery_skipIf_keepsAllBut _ _, by simp [Part.mayChange]⟩
  | ldVxK x => cases h; exact ⟨_, s.pollKey_keepsAllBut x, by simp [Part.mayChange]⟩
  | ldDTVx => cases h; exact ⟨_, s.writeDT_advance_keepsAllBut _, by simp [Part.mayChange]⟩
  | ldSTVx => cases h; exact ⟨_, s.writeST_advance_keepsAllBut _, by simp [Part.mayChange]⟩
  | ldB x =>
    obtain ⟨-, rfl⟩ := exec_ldB_next.1 h
    exact ⟨_, s.storeBytes_advance_keepsAllBut _ _, by simp [Part.mayChange]⟩
  | storeRegs x =>
    obtain ⟨-, rfl⟩ := exec_storeRegs_next.1 h
    exact ⟨_, s.storeBytes_advance_keepsAllBut _ _, by simp [Part.mayChange]⟩
  | loadRegs x =>
    obtain ⟨-, rfl⟩ := exec_loadRegs_next.1 h
    exact ⟨_, s.loadBlock_advance_keepsAllBut x, by simp [Part.mayChange]⟩
  | unrecognized => cases h; exact ⟨_, s.advance_movesOnlyPc.1, by simp [Part.mayChange]⟩

/-- Settles O15: the parts outside an instruction's frame are among those the spec names it for. -/
theorem onlyNamedInstructionsChangeAPart : Obligations.OnlyNamedInstructionsChangeAPart := by
  intro i s t p h hp
  obtain ⟨ps, hkeep, hnamed⟩ := exec_keepsAllBut h
  exact hkeep p fun hmem => absurd (hnamed p hmem) (by simp [hp])

/-! ### The registers (R11) -/

theorem State.readV_pollKey_of_ne (s : State) {x r : Reg} (h : r ≠ x) : (s.pollKey x).readV r = s.readV r := by
  cases hk : s.firstKeyDown with
  | some k => rw [s.pollKey_of_some x hk, State.advance_readV, State.readV_writeV_of_ne _ _ h, State.usedKeys_readV]
  | none => rw [s.pollKey_of_none x hk, State.usedKeys_readV]

theorem State.readV_drawn_of_ne (s : State) (x y : Reg) (n : BitVec 4) {r : Reg} (h : r ≠ VF) :
    (s.drawn x y n).readV r = s.readV r := by
  rw [State.drawn, State.advance_readV, State.readV_writeFlag_of_ne _ _ h, State.writeFb_readV]

/-- Settles O16: the writers of R11 one by one; every other instruction leaves all registers as they are, by O15. -/
theorem onlyNamedRegistersAreWritten : Obligations.OnlyNamedRegistersAreWritten := by
  intro i s t r h hr
  cases i with
  | ldImm x | addImm x | ldReg x | orReg x | andReg x | xorReg x | ldVxDT x =>
    cases h
    exact s.readV_writeV_of_ne _ (beq_eq_false_iff_ne.1 hr)
  | rnd x =>
    cases h
    exact s.usedRandom.readV_writeV_of_ne _ (beq_eq_false_iff_ne.1 hr)
  | addReg x | subReg x | shr x | subnReg x | shl x =>
    cases h
    have hne : ¬ (r = x ∨ r = VF) := by simpa [mayWriteReg] using hr
    exact (s.writeFlag_writeV_advance_writesOnlyRegAndFlag _ x _).2.1 r hne
  | drw x y n =>
    obtain ⟨-, rfl⟩ := exec_drw_next.1 h
    exact s.readV_drawn_of_ne x y n (beq_eq_false_iff_ne.1 hr)
  | ldVxK x =>
    cases h
    exact s.readV_pollKey_of_ne (beq_eq_false_iff_ne.1 hr)
  | loadRegs x =>
    obtain ⟨-, rfl⟩ := exec_loadRegs_next.1 h
    rw [State.advance_readV, State.readV_loadBlock, if_neg (of_decide_eq_false hr)]
  | _ => exact onlyNamedInstructionsChangeAPart _ s t .regs h rfl r

/-! ### Independence from the sound timer and the inputs (R18, R24, R25) -/

/-- Other contents of the fields that no instruction, or only a few, read. -/
def State.mapUnread (keys : Option (BitVec 16) → Option (BitVec 16)) (rnd : Option Byte → Option Byte)
    (keyAnswer : Option Bool → Option Bool) (st : Byte → Byte) (s : State) : State :=
  { s with keys := keys s.keys, rnd := rnd s.rnd, keyAnswer := keyAnswer s.keyAnswer, ST := st s.ST }

/-- The outcome with another next state; a fault and a refusal stay as they are. -/
def mapNext (f : State → State) : Host.Outcome State Fault Refusal → Host.Outcome State Fault Refusal
  | .next t => .next (f t)
  | .fault r => .fault r
  | .refused q => .refused q

theorem mapNext_ite (f : State → State) (c : Bool) (u : State) (r : Fault) :
    mapNext f (if c then .next u else .fault r) = if c then .next (f u) else .fault r := by
  cases c <;> rfl

/-- An instruction that neither reads the inputs nor writes the sound timer does the same whatever those fields hold,
and leaves them as they are. -/
theorem exec_mapUnread {i : Instr} {keys : Option (BitVec 16) → Option (BitVec 16)} {rnd : Option Byte → Option Byte}
    {keyAnswer : Option Bool → Option Bool} {st : Byte → Byte} (s : State) (hin : readsInputs i = false)
    (hst : Part.mayChange .sound i = false) :
    exec i (s.mapUnread keys rnd keyAnswer st) = mapNext (State.mapUnread keys rnd keyAnswer st) (exec i s) := by
  cases i with
  | rnd | skp | sknp | ldVxK => cases hin
  | ldSTVx => cases hst
  | ret =>
    cases hs : s.stack with
    | nil => rw [exec_ret_of_empty hs]; exact exec_ret_of_empty hs
    | cons a rest => rw [exec_ret_of_cons hs]; exact exec_ret_of_cons hs
  | call nnn => rw [exec_call, exec_call, mapNext_ite]; rfl
  | drw x y n => rw [exec_drw, exec_drw, mapNext_ite]; rfl
  | ldB x => rw [exec_ldB, exec_ldB, mapNext_ite]; rfl
  | storeRegs x => rw [exec_storeRegs, exec_storeRegs, mapNext_ite]; rfl
  | loadRegs x => rw [exec_loadRegs, exec_loadRegs, mapNext_ite]; rfl
  | _ => rfl

theorem State.usedKeys_writeST (s : State) (v : Byte) : (s.writeST v).usedKeys = s.usedKeys.writeST v := by
  unfold State.usedKeys
  rw [apply_ite (State.writeST · v)]
  rfl

theorem State.afterKeyQuery_writeST (s : State) (a v : Byte) :
    (s.writeST v).afterKeyQuery a = (s.afterKeyQuery a).writeST v := by
  unfold State.afterKeyQuery
  split
  · exact s.usedKeys_writeST v
  · rfl

theorem State.pollKey_writeST (s : State) (x : Reg) (v : Byte) :
    (s.writeST v).pollKey x = (s.pollKey x).writeST v := by
  have hscan : (s.writeST v).firstKeyDown = s.firstKeyDown := rfl
  cases hk : s.firstKeyDown with
  | some k =>
    rw [s.pollKey_of_some x hk, (s.writeST v).pollKey_of_some x (hscan.trans hk), State.usedKeys_writeST]
    rfl
  | none => rw [s.pollKey_of_none x hk, (s.writeST v).pollKey_of_none x (hscan.trans hk), State.usedKeys_writeST]

/-- With another sound timer every instruction but its writer does the same and keeps the other value. -/
theorem exec_writeST {i : Instr} (s : State) (v : Byte) (hst : Part.mayChange .sound i = false) :
    exec i (s.writeST v) = mapNext (State.writeST · v) (exec i s) := by
  cases hin : readsInputs i with
  | false => exact exec_mapUnread (keys := id) (rnd := id) (keyAnswer := id) (st := fun _ => v) s hin hst
  | true =>
    cases i with
    | rnd => rfl
    | skp | sknp =>
      simp only [exec_skp, exec_sknp, State.afterKeyQuery_writeST]
      rfl
    | ldVxK x => simp only [exec_ldVxK, State.pollKey_writeST, mapNext]
    | _ => cases hin

/-- Settles O17: `Fx18` overwrites the other value, every other instruction carries it along, and no fault depends on
it. -/
theorem soundTimerIsNeverRead : Obligations.SoundTimerIsNeverRead := by
  intro i s v
  constructor
  · intro t h
    cases hst : Part.mayChange .sound i with
    | false => exact ⟨t.writeST v, by rw [exec_writeST s v hst, h, mapNext], t.writeST_keepsAllBut v⟩
    | true =>
      cases i with
      | ldSTVx x => exact ⟨t, h, keepsAllBut_refl _ t⟩
      | _ => cases hst
  · intro r h
    exact exec_eq_fault.2 (raises_withEnvironment.2 (exec_eq_fault.1 h))

/-- Settles O18: `Fx18` writes its timer from a register, and every other instruction carries the inputs along. -/
theorem inputsReadOnlyByNamedInstructions : Obligations.InputsReadOnlyByNamedInstructions := by
  intro i s t keys rnd keyAnswer hin h
  cases hst : Part.mayChange .sound i with
  | false =>
    have hcomm := exec_mapUnread (keys := fun _ => some keys) (rnd := fun _ => some rnd)
      (keyAnswer := fun _ => some keyAnswer) (st := id) s hin hst
    rw [h] at hcomm
    exact hcomm
  | true =>
    cases i with
    | ldSTVx x => cases h; rfl
    | _ => cases hst

end Sys2Proof.Machine
end

section
/-! PROOF. The invariant of the machine (10_state.md sections 4 and 5): what a step can do to memory, to the stack and
to `pc`, and that each keeps its bound; then the host's operations, by induction over an execution. O12, O13 and O14. -/

namespace Sys2Proof.Machine

/-! ### Memory, the stack and `pc` after an instruction -/

theorem State.pollKey_mem (s : State) (x : Reg) : (s.pollKey x).mem = s.mem := by
  cases hk : s.firstKeyDown with
  | some k => rw [s.pollKey_of_some x hk, State.advance_mem, State.writeV_mem, State.usedKeys_mem]
  | none => rw [s.pollKey_of_none x hk, State.usedKeys_mem]

/-- Memory changes only by a run of bytes that passed the range check (R36, R37). -/
theorem exec_next_mem {i : Instr} {s t : State} (h : exec i s = .next t) :
    t.mem = s.mem ∨ ∃ vs, inRange s.base vs.length = true ∧ t.mem = (s.storeBytes s.base vs).mem := by
  cases i with
  | ret =>
    obtain ⟨a, rest, -, rfl⟩ := exec_ret_next.1 h
    exact .inl rfl
  | call =>
    obtain ⟨-, rfl⟩ := exec_call_next.1 h
    exact .inl rfl
  | drw =>
    obtain ⟨-, rfl⟩ := exec_drw_next.1 h
    exact .inl rfl
  | loadRegs =>
    obtain ⟨-, rfl⟩ := exec_loadRegs_next.1 h
    exact .inl rfl
  | ldB x =>
    obtain ⟨hr, rfl⟩ := exec_ldB_next.1 h
    exact .inr ⟨decimalDigits (s.readV x), hr, rfl⟩
  | storeRegs x =>
    obtain ⟨hr, rfl⟩ := exec_storeRegs_next.1 h
    exact .inr ⟨s.blockValues x, by rwa [State.length_blockValues], rfl⟩
  | skp | sknp =>
    cases h
    exact .inl (State.afterKeyQuery_mem s _)
  | ldVxK x =>
    cases h
    exact .inl (s.pollKey_mem x)
  | _ => cases h; exact .inl rfl

/-- The stack changes only by a push of `pc + 2` on a stack that is not full, or by a pop (R70, R72). -/
theorem exec_next_stack {i : Instr} {s t : State} (h : exec i s = .next t) :
    t.stack = s.stack ∨ (s.depth < 16 ∧ t.stack = (s.pc + 2) :: s.stack) ∨ ∃ a, s.stack = a :: t.stack := by
  cases i with
  | ret =>
    obtain ⟨a, rest, hs, rfl⟩ := exec_ret_next.1 h
    exact .inr (.inr ⟨a, hs⟩)
  | call =>
    obtain ⟨hd, rfl⟩ := exec_call_next.1 h
    exact .inr (.inl ⟨hd, rfl⟩)
  | _ => exact .inl (onlyNamedInstructionsChangeAPart _ s t .stack h rfl)

theorem State.skipIf_pc_near (s : State) (c : Bool) :
    ∃ k : Nat, k ≤ 4 ∧ (s.skipIf c).pc = s.pc + BitVec.ofNat 16 k := by
  cases c with
  | false => exact ⟨2, by decide, rfl⟩
  | true => exact ⟨4, by decide, rfl⟩

theorem State.pollKey_pc_near (s : State) (x : Reg) :
    ∃ k : Nat, k ≤ 4 ∧ (s.pollKey x).pc = s.pc + BitVec.ofNat 16 k := by
  cases hk : s.firstKeyDown with
  | some k =>
    refine ⟨2, by decide, ?_⟩
    rw [s.pollKey_of_some x hk, State.advance_pc, State.writeV_pc, State.usedKeys_pc]
    rfl
  | none =>
    refine ⟨0, by decide, ?_⟩
    rw [s.pollKey_of_none x hk, State.usedKeys_pc, BitVec.add_zero]

/-- Where `pc` can go: at most four bytes on, to an address with `V0` added or not, or to a return address (R61, R70 to
R73, R125). -/
theorem exec_next_pc {i : Instr} {s t : State} (h : exec i s = .next t) :
    (∃ k : Nat, k ≤ 4 ∧ t.pc = s.pc + BitVec.ofNat 16 k) ∨ (∃ nnn v, t.pc = addr16 nnn + byte16 v) ∨
      t.pc ∈ s.stack := by
  cases i with
  | ret =>
    obtain ⟨a, rest, hs, rfl⟩ := exec_ret_next.1 h
    exact .inr (.inr (by simp [hs]))
  | call nnn =>
    obtain ⟨-, rfl⟩ := exec_call_next.1 h
    exact .inr (.inl ⟨nnn, 0, (BitVec.add_zero _).symm⟩)
  | jp nnn => cases h; exact .inr (.inl ⟨nnn, 0, (BitVec.add_zero _).symm⟩)
  | jpV0 nnn => cases h; exact .inr (.inl ⟨nnn, _, rfl⟩)
  | seImm | sneImm | seReg | sneReg => cases h; exact .inl (s.skipIf_pc_near _)
  | skp | sknp => cases h; exact .inl (s.afterKeyQuery_pc _ ▸ (s.afterKeyQuery _).skipIf_pc_near _)
  | ldVxK x => cases h; exact .inl (s.pollKey_pc_near x)
  | drw =>
    obtain ⟨-, rfl⟩ := exec_drw_next.1 h
    exact .inl ⟨2, by decide, rfl⟩
  | ldB =>
    obtain ⟨-, rfl⟩ := exec_ldB_next.1 h
    exact .inl ⟨2, by decide, rfl⟩
  | storeRegs =>
    obtain ⟨-, rfl⟩ := exec_storeRegs_next.1 h
    exact .inl ⟨2, by decide, rfl⟩
  | loadRegs =>
    obtain ⟨-, rfl⟩ := exec_loadRegs_next.1 h
    exact .inl ⟨2, by decide, rfl⟩
  | _ => cases h; exact .inl ⟨2, by decide, rfl⟩

/-! ### Each part of the invariant is kept -/

theorem exec_keeps_wf {i : Instr} {s t : State} (h : exec i s = .next t) (hwf : Memory.wf s.mem = true) :
    Memory.wf t.mem = true := by
  obtain hmem | ⟨vs, hr, hmem⟩ := exec_next_mem h
  · rwa [hmem]
  · rw [hmem]
    exact s.wf_storeBytes _ vs hwf hr

theorem exec_keeps_depth {i : Instr} {s t : State} (h : exec i s = .next t) (hd : s.depth ≤ 16) : t.depth ≤ 16 := by
  unfold State.depth at *
  obtain hs | ⟨hlt, hs⟩ | ⟨a, hs⟩ := exec_next_stack h
  · rwa [hs]
  · rw [hs]
    exact hlt
  · rw [hs] at hd
    exact Nat.le_of_succ_le hd

/-- The only new return address is `pc + 2` of an instruction that was fetched. -/
theorem exec_keeps_entries {i : Instr} {s t : State} (h : exec i s = .next t) (hpc : s.pc.toNat ≤ 4094)
    (he : ∀ a ∈ s.stack, 2 ≤ a.toNat ∧ a.toNat ≤ 4096) : ∀ a ∈ t.stack, 2 ≤ a.toNat ∧ a.toNat ≤ 4096 := by
  obtain hs | ⟨-, hs⟩ | ⟨b, hs⟩ := exec_next_stack h
  · rwa [hs]
  · rw [hs, List.forall_mem_cons]
    exact ⟨by bv_omega, he⟩
  · rw [hs, List.forall_mem_cons] at he
    exact he.2

theorem toNat_addr16_add_byte16 (nnn : BitVec 12) (v : Byte) :
    (addr16 nnn + byte16 v).toNat = nnn.toNat + v.toNat := by
  have := nnn.isLt
  have := v.isLt
  rw [BitVec.toNat_add, addr16_toNat, byte16, BitVec.toNat_setWidth_of_le (by decide)]
  omega

/-- `pc` stays within `4095 + 255` (R15). -/
theorem exec_keeps_pc {i : Instr} {s t : State} (h : exec i s = .next t) (hpc : s.pc.toNat ≤ 4094)
    (he : ∀ a ∈ s.stack, 2 ≤ a.toNat ∧ a.toNat ≤ 4096) : t.pc.toNat ≤ 4350 := by
  obtain ⟨k, hk, ht⟩ | ⟨nnn, v, ht⟩ | hmem := exec_next_pc h
  · rw [ht, BitVec.toNat_add, BitVec.toNat_ofNat]
    omega
  · have := nnn.isLt
    have := v.isLt
    rw [ht, toNat_addr16_add_byte16]
    omega
  · exact (he _ hmem).2.trans (by decide)

/-- Settles O13: a step that answers a next state executed an instruction fetched from an address of at most 4094, and
an instruction keeps each part of the invariant. -/
theorem stepKeepsInvariant : Obligations.StepKeepsInvariant := by
  rintro s t ⟨hwf, hdepth, hentries, -⟩ hstep
  obtain ⟨w, -, hpc, hexec⟩ := step_next hstep
  exact ⟨exec_keeps_wf hexec hwf, exec_keeps_depth hexec hdepth, exec_keeps_entries hexec hpc hentries,
    exec_keeps_pc hexec hpc hentries⟩

/-- Settles O12: memory lists nothing, the stack is empty, and `pc` is `0x200`. -/
theorem resetSatisfiesInvariant : Obligations.ResetSatisfiesInvariant :=
  ⟨rfl, Nat.zero_le _, nofun, by decide⟩

/-! ### Executions (R5, R141, R161) -/

/-- Storing a run inside memory keeps the invariant. -/
theorem MachineInv.storeBytes {s : State} {a : Nat} {vs : List Byte} (h : MachineInv s)
    (ha : a + vs.length ≤ Config.memSize) : MachineInv (s.storeBytes a vs) := by
  obtain ⟨hwf, hrest⟩ := h
  exact ⟨Memory.wf_writeBytes vs hwf ha, hrest⟩

/-- `loadProgram` and its two results (R41, R42). -/
theorem Session.load_eq (se : Session) (bytes : List Byte) :
    se.load bytes =
      if 0x200 + bytes.length > 4096 then ({ se with phase := .loadFailed }, .programTooLarge)
      else ({ phase := .running, machine := se.machine.storeBytes 0x200 bytes }, .ok) := by
  unfold Session.load
  rw [State.loadProgram_eq]
  by_cases h : 0x200 + bytes.length > 4096
  · rw [if_pos h, if_pos h]
  · rw [if_neg h, if_neg h]

/-- A host step that is not refused goes on, or reports a fault and leaves everything as it was (R134, R135). -/
theorem Session.stepWith_ok {se se' : Session} {k : BitVec 16} {b : Byte} {a : Bool} {reply : HostReply}
    (h : se.stepWith k b a = .ok (se', reply)) :
    (∃ m, step (se.machine.withInputs k b a) = .next m ∧ se' = { se with machine := m } ∧ reply = .ok) ∨
    ∃ r, step (se.machine.withInputs k b a) = .fault r ∧ se' = se ∧ reply = .runtimeFault r := by
  unfold Session.stepWith at h
  split at h
  · next m hm => cases h; exact .inl ⟨m, hm, rfl, rfl⟩
  · next r hr => cases h; exact .inr ⟨r, hr, rfl, rfl⟩
  · cases h

/-- An execution of one operation and more is that operation and an execution of the rest. -/
theorem Session.run_cons_ok {se se'' : Session} {op : HostOp} {ops : List HostOp} {replies : List HostReply}
    (h : se.run (op :: ops) = .ok (se'', replies)) :
    ∃ se' reply rest, se.apply op = .ok (se', reply) ∧ se'.run ops = .ok (se'', rest) := by
  rw [Session.run] at h
  split at h
  · cases h
  · next se' reply happly =>
    split at h
    · cases h
    · next se₂ rest hrun =>
      cases h
      exact ⟨se', reply, rest, happly, hrun⟩

theorem Session.construct_inv : Session.construct.Inv := by
  have hreset : MachineInv State.reset := resetSatisfiesInvariant
  exact hreset.storeBytes (by decide)

/-- Each host operation that is not refused keeps the invariant. -/
theorem Session.apply_keeps_inv {se se' : Session} {op : HostOp} {reply : HostReply}
    (h : se.apply op = .ok (se', reply)) (hinv : se.Inv) : se'.Inv := by
  obtain ⟨-, -, rfl, -⟩ | ⟨bytes, -, -, hload⟩ | ⟨k, b, a, -, -, hstep⟩ | ⟨-, -, rfl, -⟩ | ⟨-, -, rfl, -⟩ :=
    Session.apply_ok h
  · exact MachineInv.storeBytes hinv (by decide)
  · rw [Session.load_eq] at hload
    split at hload
    · cases hload
      exact hinv
    · next hfit =>
      cases hload
      exact MachineInv.storeBytes hinv (Nat.not_lt.1 hfit)
  · obtain ⟨m, hm, rfl, -⟩ | ⟨r, -, rfl, -⟩ := Session.stepWith_ok hstep
    · exact stepKeepsInvariant (se.machine.withInputs k b a) m hinv hm
    · exact hinv
  · exact hinv
  · exact hinv

theorem Session.run_keeps_inv (ops : List HostOp) {se se' : Session} {replies : List HostReply}
    (h : se.run ops = .ok (se', replies)) (hinv : se.Inv) : se'.Inv := by
  induction ops generalizing se replies with
  | nil => cases h; exact hinv
  | cons op ops ih =>
    obtain ⟨se₁, reply, rest, happly, hrun⟩ := Session.run_cons_ok h
    exact ih hrun (Session.apply_keeps_inv happly hinv)

/-- Settles O14, by induction over the operations, from construction on. -/
theorem everyExecutionKeepsInvariant : Obligations.EveryExecutionKeepsInvariant :=
  fun ops _ _ h => Session.run_keeps_inv ops h Session.construct_inv

end Sys2Proof.Machine
end

section
/-! PROOF. Control flow (40_flow.md): the call, the computed jump, the skips on registers, and the return that undoes a
call. O21, O23, O25 and O26. -/

namespace Sys2Proof.Machine

/-- Settles O21: the stack with room takes `pc + 2`, and the jump writes `pc`. -/
theorem callPushesAndJumps : Obligations.CallPushesAndJumps :=
  fun s nnn => ⟨decodeWord_call nnn, fun hroom =>
    ⟨_, exec_call_next.2 ⟨hroom, rfl⟩, s.push_jumpTo_keepsAllBut _ _, rfl, rfl⟩⟩

/-- Settles O23: the sum of a 12-bit and an 8-bit number does not wrap, and the fetch from it fails like any other. -/
theorem computedJumpAddsV0 : Obligations.ComputedJumpAddsV0 := by
  intro s nnn
  have hpc := toNat_addr16_add_byte16 nnn (s.readV 0)
  exact ⟨decodeWord_jpV0 nnn, _, exec_jpV0 nnn s, (s.jumpTo_movesOnlyPc _).1, hpc,
    fun hout => step_of_pc_outside (hpc ▸ hout)⟩

/-- Settles O25: both are skips, `5xy0` on `Vx = Vy` and `9xy0` on its negation; their families have no other row. -/
theorem skipsOnRegisters : Obligations.SkipsOnRegisters := by
  intro s x y
  refine ⟨⟨decodeWord_seReg x y, _, exec_seReg x y s, ?_⟩, ⟨decodeWord_sneReg x y, _, exec_sneReg x y s, ?_⟩, ?_⟩
  · simpa only [beq_iff_eq] using s.skipIf_movesOnlyPc (s.readV x == s.readV y)
  · simpa only [bne_iff_ne, ne_eq, ite_not] using s.skipIf_movesOnlyPc (s.readV x != s.readV y)
  · intro n hn
    rw [decodeWord_eq_unrecognized, decodeWord_eq_unrecognized]
    simp only [fieldF_formatXYN, fieldN_formatXYN]
    exact ⟨.inr (.inl ⟨trivial, hn⟩), .inr (.inr (.inr (.inl ⟨trivial, hn⟩)))⟩

/-- Settles O26: the call leaves its `pc + 2` on top of the old stack, and the return pops it. -/
theorem returnUndoesCall : Obligations.ReturnUndoesCall := by
  intro s t u nnn hcall hstack
  obtain ⟨-, rfl⟩ := exec_call_next.1 hcall
  exact ⟨_, exec_ret_of_cons hstack, rfl, rfl, u.pop_jumpTo_keepsAllBut _ _⟩

end Sys2Proof.Machine
end

section
/-! PROOF. Arithmetic and logic (41_alu.md): the subtractions and the shifts, `VF` as an operand included, and the
random byte. The result statement reads the registers after the flag write (R86), so an operand that is `VF` reads as the
new flag and every other as before. O31 to O35. -/

namespace Sys2Proof.Machine

/-! ### The flag bytes -/

theorem boolByte_greater (a b : Byte) : boolByte (greater a b) = if a.toNat > b.toNat then 1 else 0 := by
  simp only [boolByte, greater, decide_eq_true_eq]

theorem toNat_boolByte_lowBit (a : Byte) : (boolByte (lowBit a)).toNat = a.toNat % 2 := by
  unfold boolByte lowBit
  rw [BitVec.getLsbD, Nat.testBit_zero]
  rcases Nat.mod_two_eq_zero_or_one a.toNat with h | h <;> simp [h]

theorem highBit_eq (a : Byte) : highBit a = decide (128 ≤ a.toNat) :=
  a.msb_eq_decide

theorem toNat_boolByte_highBit (a : Byte) : (boolByte (highBit a)).toNat = a.toNat / 128 := by
  have := a.isLt
  rw [highBit_eq]
  by_cases h : 128 ≤ a.toNat
  · rw [decide_eq_true h]
    change 1 = a.toNat / 128
    omega
  · rw [decide_eq_false h]
    change 0 = a.toNat / 128
    omega

/-! ### The flag and the result after both writes (R86) -/

section
variable (s : State) (c : Bool) {x y : Reg} (op : Byte → Byte → Byte)

theorem State.flagThenResult_writesOnlyRegAndFlag : WritesOnlyRegAndFlag x s (s.flagThenResult c x y op) :=
  s.writeFlag_writeV_advance_writesOnlyRegAndFlag c x _

/-- The flag is the last value of `VF` unless `VF` is the destination. -/
theorem State.readV_flag_flagThenResult (hx : x ≠ VF) : (s.flagThenResult c x y op).readV VF = boolByte c :=
  s.readV_flag_writeFlag_writeV c _ hx

theorem State.readV_flagThenResult :
    (s.flagThenResult c x y op).readV x = op ((s.writeFlag c).readV x) ((s.writeFlag c).readV y) :=
  State.readV_writeV_same _ x _

/-- Neither operand is `VF`: both read as before. -/
theorem State.readV_flagThenResult_plain (hx : x ≠ VF) (hy : y ≠ VF) :
    (s.flagThenResult c x y op).readV x = op (s.readV x) (s.readV y) := by
  rw [State.readV_flagThenResult, s.readV_writeFlag_of_ne c hx, s.readV_writeFlag_of_ne c hy]

/-- The second operand is `VF`: it reads as the new flag. -/
theorem State.readV_flagThenResult_from_flag (hx : x ≠ VF) :
    (s.flagThenResult c x VF op).readV x = op (s.readV x) (boolByte c) := by
  rw [State.readV_flagThenResult, s.readV_writeFlag_of_ne c hx, State.readV_writeFlag_flag]

/-- The destination is `VF`: it reads as the new flag. -/
theorem State.readV_flagThenResult_into_flag (hy : y ≠ VF) :
    (s.flagThenResult c VF y op).readV VF = op (boolByte c) (s.readV y) := by
  rw [State.readV_flagThenResult, s.readV_writeFlag_of_ne c hy, State.readV_writeFlag_flag]

end

/-! ### The statements -/

/-- Settles O31: the four cases say which operand reads as the new flag. -/
theorem subtractResult : Obligations.SubtractResult := by
  intro s x y
  refine ⟨decodeWord_subReg x y, _, exec_subReg x y s, s.flagThenResult_writesOnlyRegAndFlag _ _, ?_, ?_, ?_, ?_⟩
  · intro hx hy
    rw [s.readV_flagThenResult_plain _ _ hx hy, s.readV_flag_flagThenResult _ _ hx, boolByte_greater]
    exact ⟨rfl, rfl⟩
  · rintro hx rfl
    rw [s.readV_flagThenResult_from_flag _ _ hx, s.readV_flag_flagThenResult _ _ hx, boolByte_greater]
    exact ⟨rfl, rfl⟩
  · rintro rfl hy
    rw [s.readV_flagThenResult_into_flag _ _ hy, boolByte_greater]
  · rintro rfl rfl
    rw [State.readV_flagThenResult]
    exact BitVec.sub_self _

/-- Settles O32: as O31, with the operands exchanged in the comparison and in the difference. -/
theorem reverseSubtractResult : Obligations.ReverseSubtractResult := by
  intro s x y
  refine ⟨decodeWord_subnReg x y, _, exec_subnReg x y s, s.flagThenResult_writesOnlyRegAndFlag _ _, ?_, ?_, ?_, ?_⟩
  · intro hx hy
    rw [s.readV_flagThenResult_plain _ _ hx hy, s.readV_flag_flagThenResult _ _ hx, boolByte_greater]
    exact ⟨rfl, rfl⟩
  · rintro hx rfl
    rw [s.readV_flagThenResult_from_flag _ _ hx, s.readV_flag_flagThenResult _ _ hx, boolByte_greater]
    exact ⟨rfl, rfl⟩
  · rintro rfl hy
    rw [s.readV_flagThenResult_into_flag _ _ hy, boolByte_greater]
  · rintro rfl rfl
    rw [State.readV_flagThenResult]
    exact BitVec.sub_self _

/-- Settles O33: with `x = F` the flag byte itself is shifted, and it is 0 or 1. -/
theorem shiftRightResult : Obligations.ShiftRightResult := by
  intro s x y
  refine ⟨decodeWord_shr x y, _, exec_shr x y s, s.flagThenResult_writesOnlyRegAndFlag _ _, fun hx => ⟨?_, ?_⟩, ?_⟩
  · rw [State.readV_flagThenResult, s.readV_writeFlag_of_ne _ hx, BitVec.toNat_ushiftRight, Nat.shiftRight_one]
  · rw [s.readV_flag_flagThenResult _ _ hx, toNat_boolByte_lowBit]
  · rintro rfl
    have hshift : ∀ c, boolByte c >>> 1 = 0 := by decide
    rw [State.readV_flagThenResult, State.readV_writeFlag_flag, hshift]

/-- Settles O34: with `x = F` the flag byte itself is shifted, and it is 1 iff the old value had bit 7. -/
theorem shiftLeftResult : Obligations.ShiftLeftResult := by
  intro s x y
  refine ⟨decodeWord_shl x y, _, exec_shl x y s, s.flagThenResult_writesOnlyRegAndFlag _ _, fun hx => ⟨?_, ?_⟩, ?_⟩
  · rw [State.readV_flagThenResult, s.readV_writeFlag_of_ne _ hx, BitVec.toNat_shiftLeft, Nat.shiftLeft_eq]
  · rw [s.readV_flag_flagThenResult _ _ hx, toNat_boolByte_highBit]
  · rintro rfl
    have hshift : ∀ c, boolByte c <<< 1 = if c then 2 else 0 := by decide
    rw [State.readV_flagThenResult, State.readV_writeFlag_flag, hshift, highBit_eq]
    simp only [decide_eq_true_eq]

/-- Settles O35: one register write after the byte is used up. -/
theorem randomUnderMask : Obligations.RandomUnderMask := by
  intro s x kk
  refine ⟨decodeWord_rnd x kk, _, exec_rnd x kk s, s.usedRandom_writeV_advance_keepsAllBut x _, rfl,
    fun r => s.usedRandom.readV_writeV x r _, rfl, fun b hb => ?_⟩
  rw [State.advance_readV, State.readV_writeV_same, State.randomByte, hb, Option.getD_some]

end Sys2Proof.Machine
end

section
/-! PROOF. The index register, the timers and the keys (42_index_memory.md section 1, 44_timers_keys.md): `I` plus a
register and the glyph address, timer access, the key skips and the poll for a key. O37, O47 and O49 to O51. -/

namespace Sys2Proof.Machine

theorem toNat_byte16 (v : Byte) : (byte16 v).toNat = v.toNat :=
  BitVec.toNat_setWidth_of_le (by decide)

/-- The address of a glyph does not wrap, whatever the byte (R102). -/
theorem toNat_glyphAddress (v : Byte) : (glyphAddress v).toNat = 0x050 + v.toNat * 5 := by
  have := v.isLt
  unfold glyphAddress Config.fontBase
  rw [BitVec.toNat_ofNat]
  omega

/-- Settles O37: one index write each; only the sum of `Fx1E` can wrap. -/
theorem addToIndexAndGlyphAddress : Obligations.AddToIndexAndGlyphAddress := by
  intro s x
  refine ⟨⟨decodeWord_addI x, _, exec_addI x s, s.writeI_advance_keepsAllBut _, ?_, rfl⟩,
    decodeWord_ldF x, _, exec_ldF x s, s.writeI_advance_keepsAllBut _, toNat_glyphAddress _, rfl⟩
  rw [State.advance_I, State.writeI_I, BitVec.toNat_add, toNat_byte16]

/-- Settles O47: one write each, of a register or of a timer. -/
theorem timerAccess : Obligations.TimerAccess :=
  fun s x => ⟨⟨decodeWord_ldVxDT x, _, exec_ldVxDT x s, s.writeV_advance_writesOnlyReg x _⟩,
    ⟨decodeWord_ldDTVx x, _, exec_ldDTVx x s, s.writeDT_advance_keepsAllBut _, rfl, rfl⟩,
    decodeWord_ldSTVx x, _, exec_ldSTVx x s, s.writeST_advance_keepsAllBut _, rfl, rfl⟩

/-! ### The key query (R123, R124, R126) -/

theorem State.keyDown_inside (s : State) {v : Byte} (h : v.toNat ≤ 15) : s.keyDown v = s.keyLines.getLsbD v.toNat :=
  if_pos h

theorem State.keyDown_outside (s : State) {v : Byte} (h : 15 < v.toNat) : s.keyDown v = s.outsideAnswer :=
  if_neg (Nat.not_le.2 h)

theorem State.afterKeyQuery_outside (s : State) {v : Byte} (h : 15 < v.toNat) : s.afterKeyQuery v = s.usedAnswer :=
  if_neg (Nat.not_le.2 h)

/-- Settles O49: an index up to 15 is answered by its key line. -/
theorem keySkipsInsideKeyTable : Obligations.KeySkipsInsideKeyTable := by
  refine fun s x => ⟨decodeWord_skp x, decodeWord_sknp x, fun hin => ?_⟩
  refine ⟨⟨_, exec_skp x s, s.afterKeyQuery_skipIf_keepsAllBut _ _, ?_⟩,
    _, exec_sknp x s, s.afterKeyQuery_skipIf_keepsAllBut _ _, ?_⟩
  · rw [State.skipIf_pc, State.afterKeyQuery_pc, s.keyDown_inside hin]
  · rw [State.skipIf_pc, State.afterKeyQuery_pc, s.keyDown_inside hin]
    cases s.keyLines.getLsbD (s.readV x).toNat <;> rfl

/-- Settles O50: an index above 15 is answered by the answer that the query uses up. -/
theorem keySkipsOutsideKeyTable : Obligations.KeySkipsOutsideKeyTable := by
  intro s x hout
  refine ⟨⟨_, exec_skp x s, s.afterKeyQuery_skipIf_keepsAllBut _ _, ?_, ?_, ?_⟩,
    ⟨_, exec_sknp x s, s.afterKeyQuery_skipIf_keepsAllBut _ _, ?_, ?_, ?_⟩, fun _ => rfl⟩
  · rw [State.skipIf_pc, State.afterKeyQuery_pc, s.keyDown_outside hout]
  · rw [State.skipIf_keyAnswer, s.afterKeyQuery_outside hout, State.usedAnswer_keyAnswer]
  · rw [State.skipIf_draws, s.afterKeyQuery_outside hout, State.usedAnswer_draws]
  · rw [State.skipIf_pc, State.afterKeyQuery_pc, s.keyDown_outside hout]
    cases s.outsideAnswer <;> rfl
  · rw [State.skipIf_keyAnswer, s.afterKeyQuery_outside hout, State.usedAnswer_keyAnswer]
  · rw [State.skipIf_draws, s.afterKeyQuery_outside hout, State.usedAnswer_draws]

/-! ### The poll (R125) -/

/-- Settles O51: the scan finds the least key that is down, or none. -/
theorem waitForKeyPolls : Obligations.WaitForKeyPolls := by
  refine fun s x => ⟨decodeWord_ldVxK x, fun k hk hleast => ?_, fun hnone => ?_⟩
  · have hpoll := s.pollKey_of_some x (State.firstKeyDown_eq_some.2 ⟨hk, hleast⟩)
    refine ⟨_, exec_ldVxK x s, s.pollKey_keepsAllBut x, ?_, fun r => ?_⟩
    · rw [hpoll, State.advance_pc, State.writeV_pc, State.usedKeys_pc]
    · rw [hpoll, State.advance_readV, State.readV_writeV, State.usedKeys_readV]
  · have hpoll := s.pollKey_of_none x (State.firstKeyDown_eq_none.2 hnone)
    refine ⟨_, exec_ldVxK x s, ?_, fun hheld => ?_⟩
    · rw [hpoll]
      exact s.usedKeys_keepsAllBut
    · rw [hpoll, State.usedKeys_of_held hheld]

end Sys2Proof.Machine
end

section
/-! PROOF. Transfers between registers and memory (42_index_memory.md section 2): the decimal digits, the store and the
load of a block, and what a later load or fetch sees of a store. O38, O39, O40, O42 and O43. -/

namespace Sys2Proof.Machine

/-- Byte `k` of a run lies at its base plus `k`. -/
theorem State.byteAt_storeBytes_add (s : State) (a : Nat) {vs : List Byte} {k : Nat} (h : k < vs.length) :
    (s.storeBytes a vs).byteAt (a + k) = vs.getD k 0 := by
  rw [State.byteAt_storeBytes, if_pos ⟨Nat.le_add_right a k, Nat.add_lt_add_left h a⟩, Nat.add_sub_cancel_left]

theorem State.byteAt_storeBytes_outside (s : State) {a b : Nat} {vs : List Byte} (h : b < a ∨ a + vs.length ≤ b) :
    (s.storeBytes a vs).byteAt b = s.byteAt b := by
  rw [State.byteAt_storeBytes, if_neg (by omega)]

theorem toNat_ofNat_of_lt {n : Nat} (h : n < 256) : (BitVec.ofNat 8 n).toNat = n := by
  rw [BitVec.toNat_ofNat, Nat.mod_eq_of_lt h]

/-- Settles O38: the digits are the run of hundreds, tens and units at `I`, and each fits a byte. -/
theorem decimalDigitsToMemory : Obligations.DecimalDigitsToMemory := by
  refine fun s x => ⟨decodeWord_ldB x, fun hfit => ?_⟩
  have hv := (s.readV x).isLt
  have hdigit : ∀ k, k < 3 → ((s.storeBytes s.base (decimalDigits (s.readV x))).byteAt (s.base + k)).toNat =
      ((decimalDigits (s.readV x)).getD k 0).toNat :=
    fun k hk => congrArg BitVec.toNat (s.byteAt_storeBytes_add s.base hk)
  exact ⟨_, exec_ldB_next.2 ⟨(State.inRange_base (by decide)).2 hfit, rfl⟩, s.storeBytes_advance_keepsAllBut _ _, rfl,
    (hdigit 0 (by decide)).trans (toNat_ofNat_of_lt (by omega)),
    (hdigit 1 (by decide)).trans (toNat_ofNat_of_lt (by omega)),
    (hdigit 2 (by decide)).trans (toNat_ofNat_of_lt (by omega)), fun a ha => s.byteAt_storeBytes_outside ha⟩

/-- Every stored register lies at its address. -/
theorem State.byteAt_store_blockValues (s : State) {x k : Reg} (h : k ≤ x) :
    (s.storeBytes s.base (s.blockValues x)).byteAt (s.base + k.val) = s.readV k := by
  rw [State.byteAt_storeBytes_add, s.getD_blockValues x k h]
  rw [State.length_blockValues]
  exact Nat.lt_succ_of_le h

/-- Settles O39: the run of `V0 .. Vx` at `I`. -/
theorem storeRegisters : Obligations.StoreRegisters := by
  refine fun s x => ⟨decodeWord_storeRegs x, fun hfit => ?_⟩
  refine ⟨_, exec_storeRegs_next.2 ⟨(State.inRange_base (Nat.succ_ne_zero _)).2 hfit, rfl⟩,
    s.storeBytes_advance_keepsAllBut _ _, rfl, fun k hk => s.byteAt_store_blockValues hk, fun a ha => ?_⟩
  apply s.byteAt_storeBytes_outside
  rwa [State.length_blockValues]

/-- Settles O40: one block load, whose registers are read one by one. -/
theorem loadRegisters : Obligations.LoadRegisters :=
  fun s x => ⟨decodeWord_loadRegs x, fun hfit =>
    ⟨_, exec_loadRegs_next.2 ⟨(State.inRange_base (Nat.succ_ne_zero _)).2 hfit, rfl⟩,
      s.loadBlock_advance_keepsAllBut x, rfl, fun r => s.readV_loadBlock x r⟩⟩

/-- Settles O42: the same range passes the check again, and each byte read is the one that was stored. -/
theorem loadReturnsWhatWasStored : Obligations.LoadReturnsWhatWasStored := by
  intro s t u x hstore hI hmem
  obtain ⟨hr, rfl⟩ := exec_storeRegs_next.1 hstore
  have hbase : u.base = s.base := congrArg BitVec.toNat hI
  refine ⟨_, exec_loadRegs_next.2 ⟨hbase ▸ hr, rfl⟩, fun r => ?_⟩
  rw [State.advance_readV, State.readV_loadBlock]
  by_cases h : r ≤ x
  · rw [if_pos h, if_pos h, hbase, ← s.byteAt_store_blockValues h]
    exact congrArg (Memory.read · _) hmem
  · rw [if_neg h, if_neg h]

/-- Settles O43: both bytes of the next word were stored, inside memory, by the passed range check. -/
theorem storeIsSeenByNextFetch : Obligations.StoreIsSeenByNextFetch := by
  intro s t x k hstore hpc hk
  obtain ⟨hr, rfl⟩ := exec_storeRegs_next.1 hstore
  have hfit := (State.inRange_base (Nat.succ_ne_zero _)).1 hr
  have hsucc : (k + 1).val = k.val + 1 := Fin.val_add_one_of_lt (hk.trans_le x.le_last)
  have hnext : k + 1 ≤ x := by
    rw [Fin.le_def, hsucc]
    exact hk
  rw [State.fetchWord_eq_some, hpc, State.advance_byteAt, State.advance_byteAt, Nat.add_assoc, ← hsucc,
    s.byteAt_store_blockValues hk.le, s.byteAt_store_blockValues hnext]
  refine ⟨?_, rfl⟩
  have hkx : k.val < x.val := hk
  rw [State.base_eq]
  omega

end Sys2Proof.Machine
end

section
/-! PROOF. The draw (43_display.md section 2). A column, a row of columns and the sprite's rows each invert a set of
pixels and note whether one of them was set; where the sets of the parts are disjoint, the whole inverts their union
(R113). They are disjoint because a sprite is narrower and lower than the display it wraps on. O45 and O46. -/

namespace Sys2Proof.Machine

/-- From `d` to `d'` exactly the pixels of `C` are inverted, and the collision is noted iff one of them was set (R111,
R113). -/
structure Inverts (C : Fin 64 → Fin 32 → Prop) (d d' : Drawing) : Prop where
  covered : ∀ tx ty, C tx ty → d'.fb.pixel tx ty = !d.fb.pixel tx ty
  uncovered : ∀ tx ty, ¬ C tx ty → d'.fb.pixel tx ty = d.fb.pixel tx ty
  collision : d'.collision = true ↔ d.collision = true ∨ ∃ tx ty, C tx ty ∧ d.fb.pixel tx ty = true

theorem Inverts.refl {C : Fin 64 → Fin 32 → Prop} (hC : ∀ tx ty, ¬ C tx ty) (d : Drawing) : Inverts C d d where
  covered tx ty h := absurd h (hC tx ty)
  uncovered _ _ _ := rfl
  collision := by simp [hC]

/-- Two disjoint sets one after the other invert their union: the second finds its pixels as the first found them. -/
theorem Inverts.trans {C C' C'' : Fin 64 → Fin 32 → Prop} {d d' d'' : Drawing} (h : Inverts C d d')
    (h' : Inverts C' d' d'') (hdisj : ∀ tx ty, C tx ty → ¬ C' tx ty)
    (hunion : ∀ tx ty, C'' tx ty ↔ C tx ty ∨ C' tx ty) :
    Inverts C'' d d'' where
  covered tx ty hc := by
    obtain h1 | h1 := (hunion tx ty).1 hc
    · rw [h'.uncovered tx ty (hdisj tx ty h1), h.covered tx ty h1]
    · rw [h'.covered tx ty h1, h.uncovered tx ty (fun h2 => hdisj tx ty h2 h1)]
  uncovered tx ty hc := by
    obtain ⟨h1, h2⟩ := not_or.1 (mt (hunion tx ty).2 hc)
    rw [h'.uncovered tx ty h2, h.uncovered tx ty h1]
  collision := by
    have hsecond : (∃ tx ty, C' tx ty ∧ d'.fb.pixel tx ty = true) ↔ ∃ tx ty, C' tx ty ∧ d.fb.pixel tx ty = true :=
      exists₂_congr fun tx ty => and_congr_right fun h1 => by
        rw [h.uncovered tx ty (fun h2 => hdisj tx ty h2 h1)]
    rw [h'.collision, h.collision, hsecond, or_assoc, ← exists_or]
    simp only [hunion, or_and_right, exists_or]

/-- A loop whose turns invert pairwise disjoint sets inverts their union. -/
theorem Inverts.foldl_range {f : Drawing → Nat → Drawing} {C : Nat → Fin 64 → Fin 32 → Prop} (n : Nat)
    (hstep : ∀ k d, Inverts (C k) d (f d k))
    (hdisj : ∀ j k tx ty, j < k → k < n → C j tx ty → ¬ C k tx ty) (d : Drawing) :
    Inverts (fun tx ty => ∃ k, k < n ∧ C k tx ty) d ((List.range n).foldl f d) := by
  induction n with
  | zero => exact .refl (by simp) d
  | succ n ih =>
    rw [List.range_succ, List.foldl_append]
    refine (ih fun j k tx ty hj hk => hdisj j k tx ty hj (by omega)).trans (hstep n _) ?_ ?_
    · rintro tx ty ⟨k, hk, hC⟩
      exact hdisj k n tx ty hk (Nat.lt_succ_self n) hC
    · intro tx ty
      simp only [Nat.lt_succ_iff_lt_or_eq, or_and_right, exists_or, exists_eq_left]

/-! ### A column, a row, a sprite (R111) -/

theorem inverts_drawPixel (px py : Nat) (b : Byte) (row col : Nat) (d : Drawing) :
    Inverts (fun tx ty => spriteBit b col = true ∧ tx = wrapX px col ∧ ty = wrapY py row) d
      (drawPixel px py b row col d) where
  covered tx ty h := by rw [pixel_drawPixel, if_pos h]
  uncovered tx ty h := by rw [pixel_drawPixel, if_neg h]
  collision := by
    rw [collision_drawPixel, Bool.or_eq_true, Bool.and_eq_true]
    simp

/-- Different columns of a row land on different columns of the display. -/
theorem wrapX_inj {px j k : Nat} (hj : j < 64) (hk : k < 64) (h : wrapX px j = wrapX px k) : j = k := by
  have hval : (px + j) % 64 = (px + k) % 64 := congrArg Fin.val h
  omega

theorem wrapY_inj {py j k : Nat} (hj : j < 32) (hk : k < 32) (h : wrapY py j = wrapY py k) : j = k := by
  have hval : (py + j) % 32 = (py + k) % 32 := congrArg Fin.val h
  omega

/-- The pixels that a row of the sprite covers. -/
def RowCovers (px py : Nat) (b : Byte) (row : Nat) (tx : Fin 64) (ty : Fin 32) : Prop :=
  ∃ col, col < 8 ∧ spriteBit b col = true ∧ tx = wrapX px col ∧ ty = wrapY py row

theorem inverts_drawRow (px py : Nat) (b : Byte) (row : Nat) (d : Drawing) :
    Inverts (RowCovers px py b row) d (drawRow px py b row d) := by
  refine Inverts.foldl_range 8 (fun col d => inverts_drawPixel px py b row col d) ?_ d
  rintro j k tx ty hjk hk ⟨-, hj, -⟩ ⟨-, hk', -⟩
  have := wrapX_inj (by omega) (by omega) (hj.symm.trans hk')
  omega

theorem State.covers_iff {s : State} {px py n : Nat} {tx : Fin 64} {ty : Fin 32} :
    s.Covers px py n tx ty ↔ ∃ row, row < n ∧ RowCovers px py (s.byteAt (s.base + row)) row tx ty := by
  unfold State.Covers RowCovers
  simp only [Fin.ext_iff, exists_and_left]
  rfl

/-- A sprite of at most 32 rows inverts the pixels it covers (R113). -/
theorem State.inverts_drawSprite (s : State) (px py : Nat) {n : Nat} (hn : n ≤ 32) :
    Inverts (s.Covers px py n) { fb := s.fb, collision := false } (s.drawSprite px py n) := by
  have hcovers : s.Covers px py n = fun tx ty => ∃ row, row < n ∧ RowCovers px py (s.byteAt (s.base + row)) row tx ty :=
    funext₂ fun _ _ => propext State.covers_iff
  rw [hcovers]
  refine Inverts.foldl_range n (fun row d => inverts_drawRow px py _ row d) ?_ _
  rintro j k tx ty hjk hk ⟨-, -, -, -, hj⟩ ⟨-, -, -, -, hk'⟩
  have := wrapY_inj (by omega) (by omega) (hj.symm.trans hk')
  omega

/-! ### The instruction -/

theorem State.drawn_fb (s : State) (x y : Reg) (n : BitVec 4) :
    (s.drawn x y n).fb = (s.drawSprite (s.readV x).toNat (s.readV y).toNat n.toNat).fb := rfl

theorem State.readV_flag_drawn (s : State) (x y : Reg) (n : BitVec 4) :
    (s.drawn x y n).readV VF = boolByte (s.drawSprite (s.readV x).toNat (s.readV y).toNat n.toNat).collision := by
  rw [State.drawn, State.advance_readV, State.readV_writeFlag_flag]

theorem State.inverts_drawn (s : State) (x y : Reg) (n : BitVec 4) :
    Inverts (s.Covers (s.readV x).toNat (s.readV y).toNat n.toNat) { fb := s.fb, collision := false }
      (s.drawSprite (s.readV x).toNat (s.readV y).toNat n.toNat) :=
  s.inverts_drawSprite _ _ (n.isLt.le.trans (by decide))

/-- Settles O45: the display and the flag are those of the sprite's loop, which inverts the pixels it covers. -/
theorem drawInvertsCoveredPixels : Obligations.DrawInvertsCoveredPixels := by
  refine fun s x y n => ⟨decodeWord_drw x y n, fun hfit => ?_⟩
  have hinv := s.inverts_drawn x y n
  refine ⟨_, exec_drw_next.2 ⟨(inRange_iff _ _).2 hfit, rfl⟩, s.drawn_keepsAllBut x y n, rfl,
    fun r hr => s.readV_drawn_of_ne x y n hr, hinv.covered, hinv.uncovered, fun hset => ?_, fun hclear => ?_⟩
  · rw [State.readV_flag_drawn, hinv.collision.2 (.inr hset), boolByte_true]
  · have hnone : (s.drawSprite (s.readV x).toNat (s.readV y).toNat n.toNat).collision = false := by
      rw [← Bool.not_eq_true, hinv.collision]
      rintro (h | ⟨tx, ty, hc, hp⟩)
      · cases h
      · rw [hclear tx ty hc] at hp
        cases hp
    rw [State.readV_flag_drawn, hnone, boolByte_false]

/-- A draw changes neither the sprite nor, with coordinates outside `VF`, its place. -/
theorem State.covers_drawn (s : State) {x y : Reg} (n : BitVec 4) (hx : x ≠ VF) (hy : y ≠ VF) :
    (s.drawn x y n).Covers ((s.drawn x y n).readV x).toNat ((s.drawn x y n).readV y).toNat n.toNat =
      s.Covers (s.readV x).toNat (s.readV y).toNat n.toNat := by
  rw [s.readV_drawn_of_ne x y n hx, s.readV_drawn_of_ne x y n hy]
  rfl

/-- Settles O46: the second draw covers the same pixels, and a pixel inverted twice is as it was. -/
theorem drawingTwiceRestoresDisplay : Obligations.DrawingTwiceRestoresDisplay := by
  intro s t x y n hx hy h
  obtain ⟨hr, rfl⟩ := exec_drw_next.1 h
  have hfirst := s.inverts_drawn x y n
  have hsecond := (s.drawn x y n).inverts_drawn x y n
  rw [s.covers_drawn n hx hy] at hsecond
  refine ⟨_, exec_drw_next.2 ⟨hr, rfl⟩, Frame.ext_pixel fun tx ty => ?_⟩
  by_cases hc : s.Covers (s.readV x).toNat (s.readV y).toNat n.toNat tx ty
  · rw [State.drawn_fb, hsecond.covered tx ty hc, State.drawn_fb, hfirst.covered tx ty hc, Bool.not_not]
  · rw [State.drawn_fb, hsecond.uncovered tx ty hc, State.drawn_fb, hfirst.uncovered tx ty hc]

end Sys2Proof.Machine
end

section
/-! PROOF. Reset and the host's operations (70_reset_and_hazards.md, 20_memory.md section 3, 60_exceptions.md sections 2
and 6): the reset values, staging, the order of operations, a step that faults, and terminal states. O52 to O59. -/

namespace Sys2Proof.Machine

/-! ### The reset state and staging (R26, R40 to R42, R160) -/

theorem memInit_outside {a : Nat} (h : a < 0x050 ∨ 0x0A0 ≤ a) : memInit a = 0 := by
  unfold memInit Config.fontBase Config.fontBytes
  exact if_neg (by omega)

theorem memInit_font {k : Nat} (h : k < 80) : memInit (0x050 + k) = fontTable.getD k 0 := by
  unfold memInit Config.fontBase Config.fontBytes
  rw [if_pos (by omega), Nat.add_sub_cancel_left]

theorem State.storeBytes_keepsAllBut (s : State) (a : Nat) (vs : List Byte) :
    KeepsAllBut [.memory] s (s.storeBytes a vs) :=
  keepsAllBut_iff.2 (by simp)

/-- Memory in canonical form that reads as the reset memory lists nothing. -/
theorem Memory.eq_nil_of_read {m : Memory} (hwf : Memory.wf m = true) (h : ∀ a, Memory.read m a = memInit a) :
    m = [] := by
  cases m with
  | nil => rfl
  | cons c m =>
    obtain ⟨-, hne, -, -⟩ := Memory.wf_cons.1 hwf
    have hread := h c.1
    rw [Memory.read, if_pos rfl] at hread
    exact absurd hread hne

/-- Settles O52: the fields are written out in the reset state, and unlisted memory reads as the font or zero. -/
theorem resetValues : Obligations.ResetValues := by
  refine ⟨fun r => ?_, rfl, rfl, rfl, rfl, rfl, Frame.pixel_blank, fun a ha => memInit_outside ha,
    fun k => memInit_font k.isLt⟩
  exact Vector.getElem_replicate _

/-- Settles O53: the eighty bytes, each evaluated. -/
theorem fontGlyphsAtReset : Obligations.FontGlyphsAtReset := by
  unfold Obligations.FontGlyphsAtReset
  decide

/-- Settles O55: one run of 80 bytes at `0x050`. -/
theorem loadFontWritesGlyphs : Obligations.LoadFontWritesGlyphs := by
  refine fun s => ⟨s.storeBytes_keepsAllBut _ _, fun k => ?_, fun a ha => s.byteAt_storeBytes_outside ha⟩
  exact s.byteAt_storeBytes_add 0x050 k.isLt

/-- Construction overwrites the font region, the only one that reads other than zero. -/
theorem State.byteAt_construct (a : Nat) : State.construct.byteAt a = 0 := by
  by_cases ha : a < 0x050 ∨ 0x0A0 ≤ a
  · exact (State.reset.byteAt_storeBytes_outside (vs := List.replicate 80 0) ha).trans (memInit_outside ha)
  · obtain ⟨k, rfl⟩ := Nat.exists_eq_add_of_le (show 0x050 ≤ a by omega)
    have hk' : k < 80 := by omega
    have hk : k < (List.replicate 80 (0 : Byte)).length := List.length_replicate ▸ hk'
    exact (State.reset.byteAt_storeBytes_add 0x050 hk).trans (List.getD_replicate _ hk')

theorem State.byteAt_construct_loadFont (a : Nat) : State.construct.loadFont.byteAt a = memInit a := by
  obtain ⟨-, hglyph, hout⟩ := loadFontWritesGlyphs State.construct
  by_cases ha : a < 0x050 ∨ 0x0A0 ≤ a
  · rw [hout a ha, State.byteAt_construct, memInit_outside ha]
  · obtain ⟨k, rfl⟩ := Nat.exists_eq_add_of_le (show 0x050 ≤ a by omega)
    have hk : k < 80 := by omega
    rw [hglyph ⟨k, hk⟩, memInit_font hk]

/-- Two runs of writes that leave the list of memory as it was leave the state as it was. -/
theorem State.storeBytes_storeBytes_of_mem_eq {s : State} {a b : Nat} {vs ws : List Byte}
    (h : ((s.storeBytes a vs).storeBytes b ws).mem = s.mem) : (s.storeBytes a vs).storeBytes b ws = s := by
  rw [State.storeBytes, ← State.storeBytes_mem, h]
  rfl

/-- Settles O54: with the font loaded every byte reads as in the reset memory, whose list in canonical form is empty. -/
theorem constructThenLoadFontIsReset : Obligations.ConstructThenLoadFontIsReset := by
  refine ⟨State.byteAt_construct, State.storeBytes_storeBytes_of_mem_eq ?_⟩
  have hwf : Memory.wf State.construct.loadFont.mem = true :=
    (MachineInv.storeBytes Session.construct_inv (by decide)).1
  exact Memory.eq_nil_of_read hwf State.byteAt_construct_loadFont

/-- Settles O56: the two results of `loadProgram`, the second one run of bytes at `0x200`. -/
theorem loadProgramCopiesOrRejects : Obligations.LoadProgramCopiesOrRejects := by
  intro s bytes
  refine ⟨?_, fun hbig ph => ?_,
    fun hfit => ⟨_, ?_, s.storeBytes_keepsAllBut 0x200 bytes, fun k hk => ?_, fun a ha => ?_⟩⟩
  · rw [State.loadProgram_eq]
    simp
  · rw [Session.load_eq, if_pos hbig]
    exact ⟨rfl, rfl⟩
  · rw [State.loadProgram_eq, if_neg (Nat.not_lt.2 hfit)]
  · exact s.byteAt_storeBytes_add 0x200 hk
  · exact s.byteAt_storeBytes_outside ha

/-! ### The order of operations and a faulting step (R135, R161) -/

/-- A host step is never refused, because no step of the machine is. -/
theorem Session.stepWith_ne_error (se : Session) (k : BitVec 16) (b : Byte) (a : Bool) (q : Refusal) :
    se.stepWith k b a ≠ .error q := by
  unfold Session.stepWith
  split
  · nofun
  · nofun
  · next r hr => exact absurd hr (stepNeverRefuses _ r)

/-- Settles O57: each phase with the operations due in it, and every other pair is refused. -/
theorem outOfOrderOperationsAreRefused : Obligations.OutOfOrderOperationsAreRefused := by
  rintro ⟨ph, m⟩ op
  cases ph with
  | constructed =>
    cases op with
    | loadFont => exact iff_of_false nofun (not_not.2 (.inl ⟨rfl, rfl⟩))
    | _ => exact iff_of_true rfl (by simp)
  | fontLoaded =>
    cases op with
    | loadProgram bytes => exact iff_of_false nofun (not_not.2 (.inr (.inl ⟨rfl, bytes, rfl⟩)))
    | _ => exact iff_of_true rfl (by simp)
  | running =>
    cases op with
    | step k b a =>
      exact iff_of_false (Session.stepWith_ne_error _ k b a _) (not_not.2 (.inr (.inr ⟨rfl, .inl ⟨k, b, a, rfl⟩⟩)))
    | tickTimers => exact iff_of_false nofun (not_not.2 (.inr (.inr ⟨rfl, .inr (.inl rfl)⟩)))
    | framebuffer => exact iff_of_false nofun (not_not.2 (.inr (.inr ⟨rfl, .inr (.inr rfl)⟩)))
    | _ => exact iff_of_true rfl (by simp)
  | loadFailed => cases op <;> exact iff_of_true rfl (by simp)

/-- Settles O58: of the operations that are not refused only a step answers a fault, and it keeps the session. -/
theorem faultingStepChangesNothing : Obligations.FaultingStepChangesNothing := by
  intro se se' op r h
  obtain ⟨-, -, -, hreply⟩ | ⟨bytes, -, -, hload⟩ | ⟨k, b, a, rfl, -, hstep⟩ | ⟨-, -, -, hreply⟩ | ⟨-, -, -, hreply⟩ :=
    Session.apply_ok h
  · cases hreply
  · rw [Session.load_eq] at hload
    split at hload <;> cases hload
  · obtain ⟨m, -, -, hreply⟩ | ⟨r', hr', rfl, hreply⟩ := Session.stepWith_ok hstep
    · cases hreply
    · cases hreply
      exact ⟨rfl, k, b, a, rfl, hr'⟩
  · cases hreply
  · cases hreply

/-! ### Terminal states (R167) -/

theorem State.jumpTo_self (s : State) : s.jumpTo s.pc = s := rfl

/-- Settles O59: the jump writes the `pc` that is there, and a tick changes neither `pc` nor memory. -/
theorem terminalStatesAreFixedPoints : Obligations.TerminalStatesAreFixedPoints := by
  rintro s ⟨w, nnn, hw, hdec, hpc⟩
  refine ⟨?_, w, nnn, (State.fetchWord_congr rfl rfl).trans hw, hdec, hpc⟩
  rw [step_of_fetchWord hw, hdec, exec_jp, hpc, State.jumpTo_self]

end Sys2Proof.Machine
end
